-- ==== Sys2Proof/Word.lean ====
section
/-! DEFINITION. The value types of the spec's notation (00_scope.md section 6): bytes, 16-bit and 32-bit words, time, and
finite byte sequences. No value of the spec is signed. -/

namespace Sys2Proof

/-- `Byte`: an unsigned 8-bit value. -/
abbrev Byte := BitVec 8

/-- `u16`: a CRC. -/
abbrev U16 := BitVec 16

/-- `u32`: a length, a counter, a configuration value. -/
abbrev U32 := BitVec 32

/-- `Time`: an unsigned `TIME_W`-bit count of milliseconds, `TIME_W = 32` (R10). -/
abbrev Time := BitVec 32

/-- `Bytes`: a finite sequence of bytes, indexed from 0. -/
abbrev Bytes := List Byte

end Sys2Proof
end

