-- ==== Sys2Proof/Config.lean ====
section
/-! DEFINITION. The constants the spec fixes (00_scope.md R9) and the parameters it names (R10). The one parameter the
spec leaves open, `MAX_PAYLOAD_SIZE`, is an opaque constant of exactly the legal range, so that no proof can know its
value. The spec leaves no other value free (93_implementation_defined.md). -/

namespace Sys2Proof.Config

/-- `START`, the first byte of a frame (R9). -/
def startByte : Byte := 0x7E

/-- `END`, the last byte of a frame (R9). -/
def endByte : Byte := 0x7F

/-- `ESC`, the escape marker (R9). -/
def escByte : Byte := 0x7D

/-- `ESC_XOR`, the mask applied to an escaped byte (R9). -/
def escXor : Byte := 0x20

/-- `CRC_POLY`, the reflected CRC polynomial (R9). -/
def crcPoly : U16 := 0xA001

/-- `CRC_INIT`, the initial CRC register value (R9). -/
def crcInit : U16 := 0xFFFF

/-- `HEADER_LEN`: the bytes at offsets 0 to 7 (R9). -/
def headerLen : Nat := 8

/-- `MIN_FRAME_LEN`: `DECODE` rejects shorter inputs (R9; 90_conflicts.md C1 keeps the document's 8). -/
def minFrameLen : Nat := 8

/-- `OVERHEAD`: 8 header bytes and 1 trailer byte (R10, D13). -/
def overhead : Nat := 9

/-- The largest value of a `CNT_W = 32` bit counter (R10, R29). -/
def counterMax : Nat := 2 ^ 32 - 1

/-- The largest legal `cfg_max_payload`, `2^32 - 10` (R10, R31). -/
def maxPayloadLimit : Nat := 2 ^ 32 - 10

/-- `TIMEOUT`, the reset value of `cfg_timeout`: 1000 ms (R10, R32). -/
def timeoutDefault : Time := 1000

/-- `MAX_PAYLOAD_SIZE`, OPEN (R10, D28): some value of the legal range `0 .. 2^32 - 10`, and nothing more is known of it
(notes/assumptions/4.md). -/
opaque maxPayloadSize : Fin (2 ^ 32 - 10 + 1)

end Sys2Proof.Config
end

