-- ==== Sys2Proof/Syntax.lean ====
section
/-! DEFINITION. The whole syntax: `Instr`, one constructor per row of spec/opcode_table.json (sixteen operations of
30_encoding.md R81 and eleven forms of the received byte stream of R70, R75, R76, R77), and `Request`, what the engine is
handed before it is decoded: an operation number with operand values (R82: "Operands are passed as values, not as bits;
only the number has an encoding") or bytes that arrive on the line. -/

namespace Sys2Proof

/-- The sixteen operations of R81, by name. -/
inductive OpName where
  | reset | sessionReset | statReset | cfgWrite | regRead
  | crcInit | crcUpdate | crcRead | crcCalc
  | escape | encode | unescape | decode | diag | feed | tick
  deriving DecidableEq, Repr

/-- One operand value handed over with an operation number. The types are those of R81: `Byte`, `Bytes`, `u32` or `Time`
(`word`), `Nat` (`index`). -/
inductive Operand where
  | byte (b : Byte)
  | bytes (d : Bytes)
  | word (v : U32)
  | index (n : Nat)
  deriving DecidableEq, Repr

/-- The table's formats for received bytes: WIRE_BYTE, ESCAPE_PAIR, and the three parts of FRAME. The format says as what
the bytes are read; the same byte value can stand in several of them (notes/assumptions/3.md). -/
inductive WireForm where
  | wireByte | escapePair | frameHeader | framePayload | frameTrailer
  deriving DecidableEq, Repr

/-- What the environment hands the engine: an operation with its operands, or received bytes, read in one of the table's
formats, with the time base's value when they are delivered. -/
inductive Request where
  | op (number : Byte) (operands : List Operand)
  | wire (form : WireForm) (bytes : Bytes) (now : Time)
  deriving DecidableEq, Repr

/-- One constructor per row of spec/opcode_table.json. -/
inductive Instr where
  -- system operations (44_system.md)
  | reset
  | sessionReset
  | statReset
  | cfgWrite (reg : Nat) (v : U32)
  | regRead (reg : Nat)
  -- the CRC unit (40_crc.md)
  | crcInit
  | crcUpdate (b : Byte)
  | crcRead
  | crcCalc (data : Bytes)
  -- the codec unit (41_framer.md, 42_deframer.md)
  | escape (p : Bytes)
  | encode (t : Byte) (p : Bytes)
  | unescape (d : Bytes)
  | decode (f : Bytes)
  | diag (f : Bytes)
  -- the assembler unit (43_assembler.md)
  | feed (chunk : Bytes) (now : Time)
  | tick (now : Time)
  -- one received byte, by class (R75)
  | wireStart (now : Time)
  | wireEnd (now : Time)
  | wireEsc (now : Time)
  | wireData (value : Byte) (now : Time)
  -- one received escape pair (R76, R77)
  | pairStart (now : Time)
  | pairEnd (now : Time)
  | pairEsc (now : Time)
  | pairAny (x : Byte) (now : Time)
  -- the parts of a received frame (R70, R74)
  | frameHeader (length : U32) (crc : U16) (type : Byte) (now : Time)
  | framePayload (p : Byte) (now : Time)
  | frameTrailer (now : Time)
  deriving DecidableEq, Repr

/-- Why a request names no instruction. -/
inductive DecodeError where
  /-- An operation number outside the table of R82. -/
  | unknownOperation (number : Byte)
  /-- A known number whose operands are not those of R81 in number and type. -/
  | operandMismatch (number : Byte)
  /-- Received bytes that do not fit the format they are said to have. -/
  | notOfForm (form : WireForm)
  deriving DecidableEq, Repr

end Sys2Proof
end

