-- ==== Sys2Proof/WellFormed.lean ====
section
/-! DEFINITION. Which instructions are well formed. Every operation is, with any operands: the operand values the spec
refuses are refused by the operation itself (R123, R203, R204). Two wire rows are catch-alls whose bytes must not be those
of a more special row of the same format (opcode_table.json: WIRE.DATA "any value that matches none of WIRE.START,
WIRE.END, WIRE.ESC"; PAIR.ANY: "the three canonical pairs above are special cases"). -/

namespace Sys2Proof

/-- The three reserved byte values, the classes `START`, `END`, `ESC` of R75. -/
def reservedBytes : Bytes := [Config.startByte, Config.endByte, Config.escByte]

/-- The second bytes of the three canonical escape pairs (R76). -/
def canonicalSeconds : Bytes := [0x5E, 0x5F, 0x5D]

/-- No row more special than this constructor has the same bytes. -/
def Instr.wf : Instr → Bool
  | .reset | .sessionReset | .statReset | .cfgWrite _ _ | .regRead _ => true
  | .crcInit | .crcUpdate _ | .crcRead | .crcCalc _ => true
  | .escape _ | .encode _ _ | .unescape _ | .decode _ | .diag _ => true
  | .feed _ _ | .tick _ => true
  | .wireStart _ | .wireEnd _ | .wireEsc _ => true
  | .wireData value _ => !reservedBytes.contains value
  | .pairStart _ | .pairEnd _ | .pairEsc _ => true
  | .pairAny x _ => !canonicalSeconds.contains x
  | .frameHeader _ _ _ _ | .framePayload _ _ | .frameTrailer _ => true

end Sys2Proof
end

