-- ==== Sys2Proof/Decode.lean ====
section
/-! DEFINITION. The byte-order helpers (20_memory.md R50), the decoder from requests to instructions, total and rejecting
by name, and the encoder, each written from the spec's tables (30_encoding.md R70, R75, R76, R77, R81, R82). Only the
operation number of an operation has an encoding (R82); its operands are values. Received bytes are bits, and decode byte
by byte. -/

namespace Sys2Proof

/-! Byte order -/

/-- Byte `i` of a sequence. The spec defines `s[i]` only for `i < len(s)`; every use here is inside, and the value outside is
never used. -/
def byteAt (s : Bytes) (i : Nat) : Byte := s.getD i 0

/-- `le16(s, i)` (00_scope.md section 6): the byte at `i` is bits 7..0. -/
def le16 (s : Bytes) (i : Nat) : U16 := byteAt s (i + 1) ++ byteAt s i

/-- `le32(s, i)`: the byte at `i` is bits 7..0, the byte at `i + 3` bits 31..24. -/
def le32 (s : Bytes) (i : Nat) : U32 :=
  byteAt s (i + 3) ++ byteAt s (i + 2) ++ byteAt s (i + 1) ++ byteAt s i

/-- `bytes_le16(v)`. -/
def bytesLe16 (v : U16) : Bytes := [v.extractLsb' 0 8, v.extractLsb' 8 8]

/-- `bytes_le32(v)`. -/
def bytesLe32 (v : U32) : Bytes :=
  [v.extractLsb' 0 8, v.extractLsb' 8 8, v.extractLsb' 16 8, v.extractLsb' 24 8]

/-! Operations -/

/-- The operation numbers of R82, as the rule's table lists them. -/
def operationTable : List (Byte × OpName) :=
  [(0x00, .reset), (0x01, .sessionReset), (0x02, .statReset), (0x03, .cfgWrite), (0x04, .regRead),
   (0x10, .crcInit), (0x11, .crcUpdate), (0x12, .crcRead), (0x13, .crcCalc),
   (0x20, .escape), (0x21, .encode),
   (0x30, .unescape), (0x31, .decode), (0x32, .diag),
   (0x40, .feed), (0x41, .tick)]

/-- The operation a number names, if any (R82). -/
def operationOf (number : Byte) : Option OpName := operationTable.lookup number

/-- The instruction an operation makes with its operands, when they are those of R81 in number and type. -/
def withOperands : OpName → List Operand → Option Instr
  | .reset, [] => some .reset
  | .sessionReset, [] => some .sessionReset
  | .statReset, [] => some .statReset
  | .cfgWrite, [.index reg, .word v] => some (.cfgWrite reg v)
  | .regRead, [.index reg] => some (.regRead reg)
  | .crcInit, [] => some .crcInit
  | .crcUpdate, [.byte b] => some (.crcUpdate b)
  | .crcRead, [] => some .crcRead
  | .crcCalc, [.bytes data] => some (.crcCalc data)
  | .escape, [.bytes p] => some (.escape p)
  | .encode, [.byte t, .bytes p] => some (.encode t p)
  | .unescape, [.bytes d] => some (.unescape d)
  | .decode, [.bytes f] => some (.decode f)
  | .diag, [.bytes f] => some (.diag f)
  | .feed, [.bytes chunk, .word now] => some (.feed chunk now)
  | .tick, [.word now] => some (.tick now)
  | _, _ => none

/-! Received bytes -/

/-- The class of one received byte (R75): the three markers first, then `DATA`. -/
def instrOfWireByte (b : Byte) (now : Time) : Instr :=
  if b = Config.startByte then .wireStart now
  else if b = Config.endByte then .wireEnd now
  else if b = Config.escByte then .wireEsc now
  else .wireData b now

/-- The pair whose second byte is `x` (R76, R77): the three canonical pairs first. -/
def instrOfPair (x : Byte) (now : Time) : Instr :=
  if x = 0x5E then .pairStart now
  else if x = 0x5F then .pairEnd now
  else if x = 0x5D then .pairEsc now
  else .pairAny x now

/-- Received bytes read in a format, when they fit it. -/
def instrOfWire : WireForm → Bytes → Time → Option Instr
  | .wireByte, [b], now => some (instrOfWireByte b now)
  | .escapePair, [e, x], now => if e = Config.escByte then some (instrOfPair x now) else none
  | .frameHeader, [m, l0, l1, l2, l3, c0, c1, t], now =>
    if m = Config.startByte then some (.frameHeader (l3 ++ l2 ++ l1 ++ l0) (c1 ++ c0) t now) else none
  | .framePayload, [p], now => some (.framePayload p now)
  | .frameTrailer, [m], now => if m = Config.endByte then some (.frameTrailer now) else none
  | _, _, _ => none

/-! The decoder and the encoder -/

/-- The instruction a request names, or why it names none. -/
def decode : Request → Except DecodeError Instr
  | .op number operands =>
    match operationOf number with
    | none => .error (.unknownOperation number)
    | some name =>
      match withOperands name operands with
      | none => .error (.operandMismatch number)
      | some i => .ok i
  | .wire form bytes now =>
    match instrOfWire form bytes now with
    | none => .error (.notOfForm form)
    | some i => .ok i

/-- The request that names an instruction (R81, R82 for operations; R70, R75 to R77 for received bytes). -/
def encode : Instr → Request
  | .reset => .op 0x00 []
  | .sessionReset => .op 0x01 []
  | .statReset => .op 0x02 []
  | .cfgWrite reg v => .op 0x03 [.index reg, .word v]
  | .regRead reg => .op 0x04 [.index reg]
  | .crcInit => .op 0x10 []
  | .crcUpdate b => .op 0x11 [.byte b]
  | .crcRead => .op 0x12 []
  | .crcCalc data => .op 0x13 [.bytes data]
  | .escape p => .op 0x20 [.bytes p]
  | .encode t p => .op 0x21 [.byte t, .bytes p]
  | .unescape d => .op 0x30 [.bytes d]
  | .decode f => .op 0x31 [.bytes f]
  | .diag f => .op 0x32 [.bytes f]
  | .feed chunk now => .op 0x40 [.bytes chunk, .word now]
  | .tick now => .op 0x41 [.word now]
  | .wireStart now => .wire .wireByte [Config.startByte] now
  | .wireEnd now => .wire .wireByte [Config.endByte] now
  | .wireEsc now => .wire .wireByte [Config.escByte] now
  | .wireData value now => .wire .wireByte [value] now
  | .pairStart now => .wire .escapePair [Config.escByte, 0x5E] now
  | .pairEnd now => .wire .escapePair [Config.escByte, 0x5F] now
  | .pairEsc now => .wire .escapePair [Config.escByte, 0x5D] now
  | .pairAny x now => .wire .escapePair [Config.escByte, x] now
  | .frameHeader length crc type now =>
    .wire .frameHeader (Config.startByte :: (bytesLe32 length ++ bytesLe16 crc ++ [type])) now
  | .framePayload p now => .wire .framePayload [p] now
  | .frameTrailer now => .wire .frameTrailer [Config.endByte] now

/-! The opcode table's words -/

/-- The operand values of an operation when every operand is zero: 0, the empty sequence (R81's types). -/
def zeroOperands : OpName → List Operand
  | .reset | .sessionReset | .statReset | .crcInit | .crcRead => []
  | .cfgWrite => [.index 0, .word 0]
  | .regRead => [.index 0]
  | .crcUpdate => [.byte 0]
  | .crcCalc | .escape | .unescape | .decode | .diag => [.bytes []]
  | .encode => [.byte 0, .bytes []]
  | .feed => [.bytes [], .word 0]
  | .tick => [.word 0]

/-- The `n` bytes of a word, the most significant byte first: the table writes the first byte of a pair or a header
leftmost, so it is the top byte of the row's number. -/
def bytesOfWord : Nat → Nat → Bytes
  | 0, _ => []
  | n + 1, w => BitVec.ofNat 8 (w / 256 ^ n) :: bytesOfWord n w

/-- The request a table word stands for. An 8-bit word that is an operation number is that operation with zero operands;
any other 8-bit word is one received byte; a 16-bit word is an escape pair, a 64-bit word a frame header; the time of a
delivery is 0. No other width stands in the table; such a word is handed over as a received byte and fits no row. The rows
WIRE.END and FRAME.TRAILER are one word, as are WIRE.DATA and FRAME.PAYLOAD (notes/assumptions/3.md). -/
def requestOfTableWord (nbits w : Nat) : Request :=
  match nbits with
  | 8 =>
    match operationOf (BitVec.ofNat 8 w) with
    | some name => .op (BitVec.ofNat 8 w) (zeroOperands name)
    | none => .wire .wireByte (bytesOfWord 1 w) 0
  | 16 => .wire .escapePair (bytesOfWord 2 w) 0
  | 64 => .wire .frameHeader (bytesOfWord 8 w) 0
  | _ => .wire .wireByte (bytesOfWord (nbits / 8) w) 0

/-- The instruction this decoder reads from a table word. -/
def decodeTableWord (nbits w : Nat) : Option Instr :=
  match decode (requestOfTableWord nbits w) with
  | .ok i => some i
  | .error _ => none

end Sys2Proof
end

