-- ==== Sys2Proof/Machine/State.lean ====
section
/-! DEFINITION. The machine's state as plain data: `Engine` is the whole architectural state of 10_state.md R20;
`State` adds the model's own two fields, the requests not yet run and what the last operation returned. Beside them the
values operations return, the reasons a step can stop, and the state after reset (R36). -/

namespace Sys2Proof.Machine

/-- The error kinds of 60_exceptions.md R220. The last three are out of scope and no operation produces them (R226). -/
inductive ErrorKind where
  | framing | crc | escapeSequence | bufferOverflow | timeout
  | parse | unknownMessageType | transport
  deriving DecidableEq, Repr

/-- `Ok(v)` or `Err(kind)` (00_scope.md section 6). -/
inductive Result (α : Type) where
  | ok (v : α)
  | err (kind : ErrorKind)
  deriving DecidableEq, Repr

/-- A decoded frame (10_state.md R35): the message type and the unescaped payload. -/
structure Frame where
  messageType : Byte
  payload : Bytes
  deriving DecidableEq, Repr

/-- One event of the list `out` of `FEED` (43_assembler.md R160). -/
inductive Event where
  | frame (f : Frame)
  | error (kind : ErrorKind)
  deriving DecidableEq, Repr

/-- The record of `DIAG` (42_deframer.md R146). -/
structure DiagRecord where
  tooShort : Bool
  startOk : Bool
  endOk : Bool
  declaredLength : Option U32
  declaredCrc : Option U16
  msgType : Option Byte
  escapeOk : Option Bool
  actualLength : Option Nat
  lengthMatch : Option Bool
  computedCrc : Option U16
  crcMatch : Option Bool
  result : Result Frame
  deriving DecidableEq, Repr

/-- What an operation returns (30_encoding.md R81, column "results"). -/
inductive Response where
  /-- An operation with no result. -/
  | none
  /-- `CFG.WRITE` that wrote (R203). -/
  | ok
  /-- `CFG.WRITE` or `REG.READ` refused by the engine (R203, R204). -/
  | refused
  /-- `CRC.READ`, `CRC.CALC`. -/
  | crc (v : U16)
  /-- `REG.READ`. -/
  | register (v : U32)
  /-- `ESCAPE`, `ENCODE`. -/
  | bytes (b : Bytes)
  /-- `UNESCAPE`. -/
  | unescaped (r : Result Bytes)
  /-- `DECODE`. -/
  | decoded (r : Result Frame)
  /-- `DIAG`. -/
  | diag (r : DiagRecord)
  /-- `FEED`, `TICK`: the events in order, and `remaining`, a copy of `buf` (R174). -/
  | assembled (out : List Event) (remaining : Bytes)
  deriving DecidableEq, Repr

/-- The seven counters of 10_state.md R28, each `CNT_W = 32` bits. -/
structure Counters where
  messagesReceived : U32
  bytesReceived : U32
  framingErrors : U32
  crcErrors : U32
  escapeErrors : U32
  overflowErrors : U32
  timeoutErrors : U32
  deriving DecidableEq, Repr

/-- The whole architectural state (10_state.md R20). -/
structure Engine where
  /-- The CRC accumulator, streaming operations only (R22). -/
  crc : U16
  /-- The assembly buffer, oldest byte first (R26). -/
  buf : Bytes
  /-- When the pending `START` was first seen waiting (R27). -/
  pendingSince : Option Time
  /-- The seven counters (R28). -/
  counters : Counters
  /-- `cfg_max_payload` (R31). -/
  cfgMaxPayload : U32
  /-- `cfg_timeout` (R32). -/
  cfgTimeout : Time
  deriving DecidableEq, Repr

/-- The machine: the engine, and the model's own fields `requests` (what the host has issued and the engine has not run,
oldest first; notes/assumptions/1.md) and `response` (what the last operation returned; notes/assumptions/2.md). -/
structure State where
  engine : Engine
  requests : List Request
  response : Response
  deriving DecidableEq, Repr

/-- The faults of the machine: none. "There is no trap entry" (60_exceptions.md R227), and no error is fatal (R230). -/
inductive Fault where
  deriving DecidableEq, Repr

/-- The reasons a step gives a request no meaning. -/
inductive Refusal where
  /-- Raised by an arm of `exec` whose instruction has no meaning yet. Safe: the machine stops. -/
  | notModelled (mnemonic : String)
  /-- Raised by `step` for an operation number outside R82's table ("the engine refuses it"). Safe: the machine stops. -/
  | unknownOperation (number : Byte)
  /-- Raised by `step` for operands that are not those of R81. Safe: the machine stops. -/
  | operandMismatch (number : Byte)
  /-- Raised by `step` for received bytes that do not fit the format they are said to have. Safe: the machine stops. -/
  | notOfForm (form : WireForm)
  /-- Raised by `ENCODE` of 2^32 bytes or more (41_framer.md R123: "the model gives it no meaning"). Safe: the machine
  stops. -/
  | payloadTooLong
  deriving DecidableEq, Repr

/-- All seven counters zero (R28, R202). -/
def Counters.zero : Counters := ⟨0, 0, 0, 0, 0, 0, 0⟩

/-- The reset values of 10_state.md R20 and R36. -/
def Engine.reset : Engine where
  crc := Config.crcInit
  buf := []
  pendingSince := none
  counters := Counters.zero
  cfgMaxPayload := BitVec.ofNat 32 Config.maxPayloadSize.val
  cfgTimeout := Config.timeoutDefault

/-- The machine right after power-on: the engine as `RESET` leaves it (44_system.md R200), nothing issued and nothing
returned yet. -/
def State.reset : State where
  engine := Engine.reset
  requests := []
  response := .none

end Sys2Proof.Machine
end

