-- ==== Sys2Proof/Machine/Ops.lean ====
section
/-! DEFINITION. The named operations over the state: finishing an operation, taking the next request, the search and the
buffer primitives of 20_memory.md R56, saturating counters (10_state.md R29), modular time (00_scope.md section 6), and
what an error does inside the assembler (60_exceptions.md R227), which stands where a processor takes an exception. -/

namespace Sys2Proof.Machine

/-! Finishing an operation, and taking the next one -/

/-- An operation ends: it has written the state and returns its results (00_scope.md R7). Every meaning that completes
ends here; the requests that wait are not touched. -/
def complete (s : State) (e : Engine) (r : Response) : Host.Outcome State Fault Refusal :=
  .next { s with engine := e, response := r }

/-- The oldest waiting request and the state without it: operations run in the order the host issues them (R60). -/
def takeRequest (s : State) : Option (Request × State) :=
  match s.requests with
  | [] => none
  | r :: rest => some (r, { s with requests := rest })

/-- `s` with a request put before every other. -/
def putRequest (s : State) (r : Request) : State := { s with requests := r :: s.requests }

/-- The refusal of a request that names no instruction. -/
def refusalOf : DecodeError → Refusal
  | .unknownOperation number => .unknownOperation number
  | .operandMismatch number => .operandMismatch number
  | .notOfForm form => .notOfForm form

/-! Time and counters -/

/-- `elapsed(now, t) = (now - t) mod 2^TIME_W`, whatever the clock does; it is the true elapsed time under the premise of
60_exceptions.md R233 (`MonotonicClock` in Safety.lean). -/
def elapsed (now t : Time) : Nat := (now - t).toNat

/-- `sat_inc(c, k) = min(c + k, 2^CNT_W - 1)` (R29). -/
def satInc (c : U32) (k : Nat) : U32 := BitVec.ofNat 32 (min (c.toNat + k) Config.counterMax)

/-- The counter of an error kind goes up by one (R220's column "counter"; the three out-of-scope kinds have none). -/
def Counters.countError (c : Counters) : ErrorKind → Counters
  | .framing => { c with framingErrors := satInc c.framingErrors 1 }
  | .crc => { c with crcErrors := satInc c.crcErrors 1 }
  | .escapeSequence => { c with escapeErrors := satInc c.escapeErrors 1 }
  | .bufferOverflow => { c with overflowErrors := satInc c.overflowErrors 1 }
  | .timeout => { c with timeoutErrors := satInc c.timeoutErrors 1 }
  | .parse | .unknownMessageType | .transport => c

/-- A frame of `wireLength` bytes was accepted (R170). -/
def Counters.countFrame (c : Counters) (wireLength : Nat) : Counters :=
  { c with
    messagesReceived := satInc c.messagesReceived 1
    bytesReceived := satInc c.bytesReceived wireLength }

/-! The buffer primitives of R56 -/

/-- `find(s, v, from)`: the least index `i >= from` with `s[i] = v` (00_scope.md section 6). -/
def find (s : Bytes) (v : Byte) (start : Nat) : Option Nat :=
  ((s.drop start).findIdx? (· == v)).map (· + start)

/-- `buf <- buf ++ chunk`. -/
def Engine.append (e : Engine) (chunk : Bytes) : Engine := { e with buf := e.buf ++ chunk }

/-- `buf <- buf[k..]`. -/
def Engine.dropBytes (e : Engine) (k : Nat) : Engine := { e with buf := e.buf.drop k }

/-- `buf <- []`. -/
def Engine.clearBuf (e : Engine) : Engine := { e with buf := [] }

/-- `pending_since <- none`. -/
def Engine.clearPending (e : Engine) : Engine := { e with pendingSince := none }

/-- `drop_to_next_start()` (R167): to the next `START` strictly after `buf[0]`, or everything. -/
def Engine.dropToNextStart (e : Engine) : Engine :=
  match find e.buf Config.startByte 1 with
  | some i => (e.dropBytes i).clearPending
  | none => e.clearBuf.clearPending

/-! Errors and frames inside the assembler -/

/-- The working values of a `FEED`: the engine and the list `out` so far. Never state between operations. -/
structure Scan where
  engine : Engine
  out : List Event
  deriving DecidableEq, Repr

/-- What an error does (R227): "one counter is incremented once; one `Error(kind)` event is appended to `out`". The bytes
it drops are dropped by the rule that raises it. -/
def Scan.recordError (w : Scan) (kind : ErrorKind) : Scan where
  engine := { w.engine with counters := w.engine.counters.countError kind }
  out := w.out ++ [.error kind]

/-- What an accepted frame does to the counters and `out` (R170). -/
def Scan.recordFrame (w : Scan) (f : Frame) (wireLength : Nat) : Scan where
  engine := { w.engine with counters := w.engine.counters.countFrame wireLength }
  out := w.out ++ [.frame f]

/-- Apply an operation to the engine of a scan. -/
def Scan.onEngine (w : Scan) (f : Engine → Engine) : Scan := { w with engine := f w.engine }

end Sys2Proof.Machine
end

