-- ==== Sys2Proof/Machine/Flags.lean ====
section
/-! DEFINITION. The two derived status bits (10_state.md R25) and the STATUS word they stand in (R33). The engine has no
condition flag (R24); the transient `esc` of the END scan and of `UNESCAPE` is an argument of those functions. -/

namespace Sys2Proof.Machine

/-- `BUF_NONEMPTY = (len(buf) > 0)` (R25). -/
def Engine.bufNonempty (e : Engine) : Bool := decide (e.buf.length > 0)

/-- `PENDING = (pending_since != none)` (R25). -/
def Engine.pending (e : Engine) : Bool := e.pendingSince.isSome

/-- `STATUS` (R33): bit 0 `BUF_NONEMPTY`, bit 1 `PENDING`, bits 31..2 read as 0. -/
def Engine.status (e : Engine) : U32 :=
  (0 : BitVec 30) ++ BitVec.ofBool e.pending ++ BitVec.ofBool e.bufNonempty

end Sys2Proof.Machine
end

