-- ==== Sys2Proof/Machine/Operands.lean ====
section
/-! DEFINITION. The operand forms: register numbers (10_state.md R33), reserved bytes (41_framer.md R120), and error codes (60_exceptions.md R220). -/

namespace Sys2Proof.Machine

/-! Registers -/

/-- The registers R33 numbers. -/
inductive Register where
  | crc | cfgMaxPayload | cfgTimeout | status | bufLen | pendingSince
  | messagesReceived | bytesReceived | framingErrors | crcErrors | escapeErrors | overflowErrors | timeoutErrors
  deriving DecidableEq, Repr

/-- The register a number names; 6, 7 and 15 upward name none (R33). -/
def registerOf : Nat → Option Register
  | 0 => some .crc
  | 1 => some .cfgMaxPayload
  | 2 => some .cfgTimeout
  | 3 => some .status
  | 4 => some .bufLen
  | 5 => some .pendingSince
  | 8 => some .messagesReceived
  | 9 => some .bytesReceived
  | 10 => some .framingErrors
  | 11 => some .crcErrors
  | 12 => some .escapeErrors
  | 13 => some .overflowErrors
  | 14 => some .timeoutErrors
  | _ => none

/-- A register's value, zero-extended to 32 bits (R33, R204). `BUF_LEN` holds the low 32 bits of the length
(notes/assumptions/8.md). -/
def readRegister (e : Engine) : Register → U32
  | .crc => e.crc.zeroExtend 32
  | .cfgMaxPayload => e.cfgMaxPayload
  | .cfgTimeout => e.cfgTimeout
  | .status => e.status
  | .bufLen => BitVec.ofNat 32 e.buf.length
  | .pendingSince => e.pendingSince.getD 0
  | .messagesReceived => e.counters.messagesReceived
  | .bytesReceived => e.counters.bytesReceived
  | .framingErrors => e.counters.framingErrors
  | .crcErrors => e.counters.crcErrors
  | .escapeErrors => e.counters.escapeErrors
  | .overflowErrors => e.counters.overflowErrors
  | .timeoutErrors => e.counters.timeoutErrors

/-- `CFG.WRITE`'s effect on the configuration, `none` where the write is refused (R203). -/
def writeRegister (e : Engine) (reg : Nat) (v : U32) : Option Engine :=
  if reg = 1 ∧ v.toNat ≤ Config.maxPayloadLimit then some { e with cfgMaxPayload := v }
  else if reg = 2 then some { e with cfgTimeout := v }
  else none

/-! Reserved bytes -/

/-- `is_reserved(b)` (R120). -/
def isReserved (b : Byte) : Bool :=
  b == Config.startByte || b == Config.endByte || b == Config.escByte

/-! Error codes -/

/-- The numeric code of an error kind (R220). -/
def ErrorKind.code : ErrorKind → Nat
  | .framing => 1
  | .crc => 2
  | .escapeSequence => 3
  | .bufferOverflow => 4
  | .timeout => 5
  | .parse => 6
  | .unknownMessageType => 7
  | .transport => 8

/-- The kinds this engine raises: the first five of R220 (R226). -/
def ErrorKind.raised (k : ErrorKind) : Bool := k.code ≤ 5

end Sys2Proof.Machine
end

