-- ==== Sys2Proof/Machine/Crc.lean ====
section
/-! DEFINITION. The CRC unit (40_crc.md): the one-byte step, the CRC of a sequence, the bit-serial view, and the meanings
of CRC.INIT, CRC.UPDATE, CRC.READ and CRC.CALC. -/

namespace Sys2Proof.Machine

/-- One of the eight shifts of R100: test bit 0 before the shift, shift right with zero fill, XOR the polynomial if the
tested bit was 1. -/
def crcShift (c : U16) : U16 :=
  if c.getLsbD 0 then (c >>> 1) ^^^ Config.crcPoly else c >>> 1

/-- `n` shifts. -/
def crcShifts : Nat → U16 → U16
  | 0, c => c
  | n + 1, c => crcShifts n (crcShift c)

/-- `crc_step(c, b)` (R100): the byte goes into bits 7..0, then eight shifts. -/
def crcStep (c : U16) (b : Byte) : U16 := crcShifts 8 (c ^^^ b.zeroExtend 16)

/-- The CRC register after the bytes of `d`, in index order. -/
def crcFrom (c : U16) (d : Bytes) : U16 := d.foldl crcStep c

/-- `crc16(d)` (R101): from `0xFFFF`, no output transformation (R102). -/
def crc16 (d : Bytes) : U16 := crcFrom Config.crcInit d

/-- One step of the bit-serial view (R108): the data bit enters at bit 0. -/
def crcBit (c : U16) (bit : Bool) : U16 :=
  if c.getLsbD 0 != bit then (c >>> 1) ^^^ Config.crcPoly else c >>> 1

/-- R108: the bits of `b`, least significant first. -/
def crcStepSerial (c : U16) (b : Byte) : U16 :=
  (List.range 8).foldl (fun c k => crcBit c (b.getLsbD k)) c

/-- CRC.INIT (R103). -/
def execCrcInit (s : State) : Host.Outcome State Fault Refusal :=
  complete s { s.engine with crc := Config.crcInit } .none

/-- CRC.UPDATE (R104). -/
def execCrcUpdate (b : Byte) (s : State) : Host.Outcome State Fault Refusal :=
  complete s { s.engine with crc := crcStep s.engine.crc b } .none

/-- CRC.READ (R105): the register is not changed. -/
def execCrcRead (s : State) : Host.Outcome State Fault Refusal :=
  complete s s.engine (.crc s.engine.crc)

/-- CRC.CALC (R106): reads and writes no state, the register `crc` included. -/
def execCrcCalc (data : Bytes) (s : State) : Host.Outcome State Fault Refusal :=
  complete s s.engine (.crc (crc16 data))

end Sys2Proof.Machine
end

