-- ==== Sys2Proof/Machine/Framer.lean ====
section
/-! DEFINITION. The byte-stuffer and framer (41_framer.md): the functions `ESCAPE` and `ENCODE` compute, and the meanings of
the two operations. -/

namespace Sys2Proof.Machine

/-- What `ESCAPE` emits for one byte (R121). -/
def escapeByte (b : Byte) : Bytes :=
  if isReserved b then [Config.escByte, b ^^^ Config.escXor] else [b]

/-- `ESCAPE(p)` (R121). -/
def escapeBytes (p : Bytes) : Bytes := p.flatMap escapeByte

/-- The first eight bytes of the frame of a payload (R70, R122). -/
def headerBytes (t : Byte) (p : Bytes) : Bytes :=
  [Config.startByte] ++ bytesLe32 (BitVec.ofNat 32 p.length) ++ bytesLe16 (crc16 p) ++ [t]

/-- `ENCODE(t, p)` for `len(p) < 2^32` (R122). -/
def encodeFrame (t : Byte) (p : Bytes) : Bytes :=
  headerBytes t p ++ escapeBytes p ++ [Config.endByte]

/-- ESCAPE (R121). -/
def execEscape (p : Bytes) (s : State) : Host.Outcome State Fault Refusal :=
  complete s s.engine (.bytes (escapeBytes p))

/-- ENCODE (R122); a payload of 2^32 bytes or more is refused (R123). -/
def execEncode (t : Byte) (p : Bytes) (s : State) : Host.Outcome State Fault Refusal :=
  if p.length < 2 ^ 32 then complete s s.engine (.bytes (encodeFrame t p))
  else .refused .payloadTooLong

end Sys2Proof.Machine
end

