-- ==== Sys2Proof/Machine/Deframer.lean ====
section
/-! DEFINITION. The un-stuffer, the frame checker and the diagnostic (42_deframer.md), and the meanings of UNESCAPE, DECODE
and DIAG. All three are pure. -/

namespace Sys2Proof.Machine

/-- The loop of R140 with its transient flag `esc` (10_state.md R24): `esc` says that the byte before is an `ESC` whose pair is
still open. `none` is the dangling `ESC`. -/
def unescapeFrom : Bool → Bytes → Option Bytes
  | false, [] => some []
  | true, [] => none
  | true, b :: rest => (unescapeFrom false rest).map ((b ^^^ Config.escXor) :: ·)
  | false, b :: rest =>
    if b = Config.escByte then unescapeFrom true rest
    else (unescapeFrom false rest).map (b :: ·)

/-- `UNESCAPE(s)` (R140). -/
def unescapeBytes (s : Bytes) : Result Bytes :=
  match unescapeFrom false s with
  | some p => .ok p
  | none => .err .escapeSequence

/-- The payload region `f[8 .. N-1)` (R141 step 4; empty when N <= 9, R142 for N = 8). -/
def payloadRegion (f : Bytes) : Bytes := (f.take (f.length - 1)).drop Config.headerLen

/-- The last byte of a candidate frame, `f[N-1]`. -/
def lastByte (f : Bytes) : Byte := byteAt f (f.length - 1)

/-- `DECODE(f)` (R141): the first failing step decides (60_exceptions.md R228). -/
def decodeFrame (f : Bytes) : Result Frame :=
  if f.length < Config.minFrameLen then .err .framing
  else if byteAt f 0 ≠ Config.startByte ∨ lastByte f ≠ Config.endByte then .err .framing
  else
    match unescapeBytes (payloadRegion f) with
    | .err kind => .err kind
    | .ok p =>
      if p.length ≠ (le32 f 1).toNat then .err .framing
      else if crc16 p ≠ le16 f 5 then .err .crc
      else .ok ⟨byteAt f 7, p⟩

/-- `DIAG(f)` (R146): every field on its own, not stopping at the first failure. -/
def diagFrame (f : Bytes) : DiagRecord :=
  let tooShort := decide (f.length < Config.minFrameLen)
  let startOk := decide (1 ≤ f.length) && byteAt f 0 == Config.startByte
  let endOk := decide (1 ≤ f.length) && lastByte f == Config.endByte
  if tooShort then
    { tooShort, startOk, endOk
      declaredLength := none, declaredCrc := none, msgType := none, escapeOk := none
      actualLength := none, lengthMatch := none, computedCrc := none, crcMatch := none
      result := decodeFrame f }
  else
    match unescapeBytes (payloadRegion f) with
    | .ok p =>
      { tooShort, startOk, endOk
        declaredLength := some (le32 f 1), declaredCrc := some (le16 f 5), msgType := some (byteAt f 7)
        escapeOk := some true
        actualLength := some p.length, lengthMatch := some (p.length == (le32 f 1).toNat)
        computedCrc := some (crc16 p), crcMatch := some (crc16 p == le16 f 5)
        result := decodeFrame f }
    | .err _ =>
      { tooShort, startOk, endOk
        declaredLength := some (le32 f 1), declaredCrc := some (le16 f 5), msgType := some (byteAt f 7)
        escapeOk := some false
        actualLength := none, lengthMatch := none, computedCrc := none, crcMatch := none
        result := decodeFrame f }

/-- UNESCAPE (R140). -/
def execUnescape (d : Bytes) (s : State) : Host.Outcome State Fault Refusal :=
  complete s s.engine (.unescaped (unescapeBytes d))

/-- DECODE (R141): a failure is a returned tag, and no counter moves. -/
def execDecode (f : Bytes) (s : State) : Host.Outcome State Fault Refusal :=
  complete s s.engine (.decoded (decodeFrame f))

/-- DIAG (R146). -/
def execDiag (f : Bytes) (s : State) : Host.Outcome State Fault Refusal :=
  complete s s.engine (.diag (diagFrame f))

end Sys2Proof.Machine
end

