-- ==== Sys2Proof/Machine/Assembler.lean ====
section
/-! DEFINITION. The frame-reassembly state machine (43_assembler.md): the steps of FEED in the order of the rules, the scan
loop, and the meanings of FEED and TICK. -/

namespace Sys2Proof.Machine

/-- The END scan of R168 from offset `i` with its transient flag `esc`; the list is the rest of `buf` from `i`. -/
def endScanFrom : Bool → Nat → Bytes → Option Nat
  | _, _, [] => none
  | esc, i, b :: rest =>
    if esc then endScanFrom false (i + 1) rest
    else if b = Config.escByte then endScanFrom true (i + 1) rest
    else if b = Config.endByte then some i
    else endScanFrom false (i + 1) rest

/-- The END scan: from offset 8, `esc` false (R168). -/
def endScan (buf : Bytes) : Option Nat := endScanFrom false Config.headerLen (buf.drop Config.headerLen)

/-- The pending frame is expired: `pending_since = some(t) and elapsed(now, t) > cfg_timeout` (R161). -/
def expired (now : Time) (e : Engine) : Bool :=
  match e.pendingSince with
  | none => false
  | some t => decide (elapsed now t > e.cfgTimeout.toNat)

/-- Step S0 (R161): expiry of the pending frame, before the chunk is appended. -/
def expire (now : Time) (w : Scan) : Scan :=
  if expired now w.engine then (w.recordError .timeout).onEngine Engine.dropToNextStart else w

/-- Wait (R175): the timestamp is taken once per pending frame. -/
def Engine.wait (now : Time) (e : Engine) : Engine :=
  { e with pendingSince := some (e.pendingSince.getD now) }

/-- What one pass of the scan loop comes to: the loop stops, or goes back to its head. -/
inductive Pass where
  | stop (w : Scan)
  | again (w : Scan)
  deriving DecidableEq, Repr

/-- END found at offset `i` (R169): the slice `buf[0 .. i+1)` is decoded, and accepted (R170) or rejected with a resync
(R171). -/
def resolve (i : Nat) (w : Scan) : Scan :=
  match decodeFrame (w.engine.buf.take (i + 1)) with
  | .ok f => (w.recordFrame f (i + 1)).onEngine fun e => (e.dropBytes (i + 1)).clearPending
  | .err kind => (w.recordError kind).onEngine Engine.dropToNextStart

/-- No END and the buffer too long (R172): the whole buffer goes. -/
def overflow (w : Scan) : Scan :=
  (w.recordError .bufferOverflow).onEngine fun e => e.clearBuf.clearPending

/-- The buffer is over its bound: `len(buf) > cfg_max_payload + 9` (R172). -/
def Engine.overBound (e : Engine) : Bool :=
  decide (e.buf.length > e.cfgMaxPayload.toNat + Config.overhead)

/-- The part of a pass after the START search, with `buf[0]` a `START`: header wait (R166), END scan (R168), then a decode
(R169), an overflow (R172) or a wait (R173). -/
def candidate (now : Time) (w : Scan) : Pass :=
  if w.engine.buf.length < Config.headerLen then .stop (w.onEngine (Engine.wait now))
  else
    match endScan w.engine.buf with
    | some i => .again (resolve i w)
    | none => if w.engine.overBound then .stop (overflow w) else .stop (w.onEngine (Engine.wait now))

/-- One pass of the scan loop: the loop head (R163), the START search with its noise discard (R164, R165), then the
candidate. -/
def pass (now : Time) (w : Scan) : Pass :=
  if w.engine.buf = [] then .stop w
  else
    match find w.engine.buf Config.startByte 0 with
    | none => .stop ((w.recordError .framing).onEngine Engine.clearBuf)
    | some 0 => candidate now w
    | some j => candidate now ((w.recordError .framing).onEngine fun e => e.dropBytes j)

/-- The scan loop with a bound on its passes. `FEED` gives it `len(buf) + 1` (R183), which is always enough, so the answer
at bound 0 is never used (Laws/Assembler.lean). -/
def scanLoop (now : Time) : Nat → Scan → Scan
  | 0, w => w
  | n + 1, w =>
    match pass now w with
    | .stop w' => w'
    | .again w' => scanLoop now n w'

/-- `FEED(chunk, now)` on an engine (R160): S0, S1, the scan loop. -/
def assemble (chunk : Bytes) (now : Time) (e : Engine) : Scan :=
  let w := (expire now ⟨e, []⟩).onEngine fun e => e.append chunk
  scanLoop now (w.engine.buf.length + 1) w

/-- The engine takes a chunk and returns the events and a copy of `buf` (R160, R174): the shared operation of FEED, TICK and
every received byte. -/
def deliver (chunk : Bytes) (now : Time) (s : State) : Host.Outcome State Fault Refusal :=
  let w := assemble chunk now s.engine
  complete s w.engine (.assembled w.out w.engine.buf)

/-- FEED (R160). -/
def execFeed (chunk : Bytes) (now : Time) (s : State) : Host.Outcome State Fault Refusal :=
  deliver chunk now s

/-- TICK (R176): `FEED([], now)`. -/
def execTick (now : Time) (s : State) : Host.Outcome State Fault Refusal :=
  deliver [] now s

end Sys2Proof.Machine
end

