-- ==== Sys2Proof/Machine/System.lean ====
section
/-! DEFINITION. The system operations (44_system.md): RESET, SESSION.RESET, STAT.RESET, CFG.WRITE, REG.READ. -/

namespace Sys2Proof.Machine

/-- RESET (R200): every piece of the engine's state to its reset value. -/
def execReset (s : State) : Host.Outcome State Fault Refusal :=
  complete s Engine.reset .none

/-- SESSION.RESET (R201): the buffer and the timestamp; counters and configuration survive. -/
def execSessionReset (s : State) : Host.Outcome State Fault Refusal :=
  complete s s.engine.clearBuf.clearPending .none

/-- STAT.RESET (R202): the seven counters. -/
def execStatReset (s : State) : Host.Outcome State Fault Refusal :=
  complete s { s.engine with counters := Counters.zero } .none

/-- CFG.WRITE (R203): the result is `Ok` or refused; a refused write changes no state and the engine goes on. -/
def execCfgWrite (reg : Nat) (v : U32) (s : State) : Host.Outcome State Fault Refusal :=
  match writeRegister s.engine reg v with
  | some e => complete s e .ok
  | none => complete s s.engine .refused

/-- REG.READ (R204): the register's value, or refused for a number that names none; no state changes. -/
def execRegRead (reg : Nat) (s : State) : Host.Outcome State Fault Refusal :=
  match registerOf reg with
  | some r => complete s s.engine (.register (readRegister s.engine r))
  | none => complete s s.engine .refused

end Sys2Proof.Machine
end

