-- ==== Sys2Proof/Machine/Wire.lean ====
section
/-! DEFINITION. The rows of the opcode table that are forms of the received byte stream (30_encoding.md R70, R74 to R77).
A received byte is taken by the assembler: each form is the delivery of its bytes, in wire order and in one chunk, at the
time `now` (notes/assumptions/3.md). -/

namespace Sys2Proof.Machine

/-- WIRE.START (R75): one received `7E`. -/
def execWireStart (now : Time) (s : State) : Host.Outcome State Fault Refusal :=
  deliver [Config.startByte] now s

/-- WIRE.END (R75): one received `7F`. -/
def execWireEnd (now : Time) (s : State) : Host.Outcome State Fault Refusal :=
  deliver [Config.endByte] now s

/-- WIRE.ESC (R75): one received `7D`. -/
def execWireEsc (now : Time) (s : State) : Host.Outcome State Fault Refusal :=
  deliver [Config.escByte] now s

/-- WIRE.DATA (R75): one received byte that stands for itself. -/
def execWireData (value : Byte) (now : Time) (s : State) : Host.Outcome State Fault Refusal :=
  deliver [value] now s

/-- PAIR.START (R76): `7D 5E`, which stands for payload byte `7E`. -/
def execPairStart (now : Time) (s : State) : Host.Outcome State Fault Refusal :=
  deliver [Config.escByte, 0x5E] now s

/-- PAIR.END (R76): `7D 5F`, which stands for payload byte `7F`. -/
def execPairEnd (now : Time) (s : State) : Host.Outcome State Fault Refusal :=
  deliver [Config.escByte, 0x5F] now s

/-- PAIR.ESC (R76): `7D 5D`, which stands for payload byte `7D`. -/
def execPairEsc (now : Time) (s : State) : Host.Outcome State Fault Refusal :=
  deliver [Config.escByte, 0x5D] now s

/-- PAIR.ANY (R77): `7D x`, which unescapes to `x XOR 20`. -/
def execPairAny (x : Byte) (now : Time) (s : State) : Host.Outcome State Fault Refusal :=
  deliver [Config.escByte, x] now s

/-- FRAME.HEADER (R70): `START`, the length and the CRC least significant byte first, the message type. -/
def execFrameHeader (length : U32) (crc : U16) (type : Byte) (now : Time) (s : State) :
    Host.Outcome State Fault Refusal :=
  deliver ([Config.startByte] ++ bytesLe32 length ++ bytesLe16 crc ++ [type]) now s

/-- FRAME.PAYLOAD (R74): one byte of the payload region. -/
def execFramePayload (p : Byte) (now : Time) (s : State) : Host.Outcome State Fault Refusal :=
  deliver [p] now s

/-- FRAME.TRAILER (R70): the `END` that closes a frame. -/
def execFrameTrailer (now : Time) (s : State) : Host.Outcome State Fault Refusal :=
  deliver [Config.endByte] now s

end Sys2Proof.Machine
end

