-- ==== Sys2Proof/Machine/Dispatch.lean ====
section
/-! DEFINITION. `exec`: one arm per constructor of `Instr`, each one direct call of that instruction's meaning. -/

namespace Sys2Proof.Machine

def exec (i : Instr) (s : State) : Host.Outcome State Fault Refusal :=
  match i with
  | .reset => Sys2Proof.Machine.execReset s
  | .sessionReset => Sys2Proof.Machine.execSessionReset s
  | .statReset => Sys2Proof.Machine.execStatReset s
  | .cfgWrite reg v => Sys2Proof.Machine.execCfgWrite reg v s
  | .regRead reg => Sys2Proof.Machine.execRegRead reg s
  | .crcInit => Sys2Proof.Machine.execCrcInit s
  | .crcUpdate b => Sys2Proof.Machine.execCrcUpdate b s
  | .crcRead => Sys2Proof.Machine.execCrcRead s
  | .crcCalc data => Sys2Proof.Machine.execCrcCalc data s
  | .escape p => Sys2Proof.Machine.execEscape p s
  | .encode t p => Sys2Proof.Machine.execEncode t p s
  | .unescape d => Sys2Proof.Machine.execUnescape d s
  | .decode f => Sys2Proof.Machine.execDecode f s
  | .diag f => Sys2Proof.Machine.execDiag f s
  | .feed chunk now => Sys2Proof.Machine.execFeed chunk now s
  | .tick now => Sys2Proof.Machine.execTick now s
  | .wireStart now => Sys2Proof.Machine.execWireStart now s
  | .wireEnd now => Sys2Proof.Machine.execWireEnd now s
  | .wireEsc now => Sys2Proof.Machine.execWireEsc now s
  | .wireData value now => Sys2Proof.Machine.execWireData value now s
  | .pairStart now => Sys2Proof.Machine.execPairStart now s
  | .pairEnd now => Sys2Proof.Machine.execPairEnd now s
  | .pairEsc now => Sys2Proof.Machine.execPairEsc now s
  | .pairAny x now => Sys2Proof.Machine.execPairAny x now s
  | .frameHeader length crc type now => Sys2Proof.Machine.execFrameHeader length crc type now s
  | .framePayload p now => Sys2Proof.Machine.execFramePayload p now s
  | .frameTrailer now => Sys2Proof.Machine.execFrameTrailer now s

end Sys2Proof.Machine
end

