-- ==== Sys2Proof/Machine/Step.lean ====
section
/-! DEFINITION. One step: the oldest request is taken, decoded and run; a request that names no instruction is refused by
name; with no request nothing happens, since the engine does nothing of its own accord (00_scope.md R7, R8). -/

namespace Sys2Proof.Machine

/-- One operation, or an idle step (notes/assumptions/1.md). -/
def step (s : State) : Host.Outcome State Fault Refusal :=
  match takeRequest s with
  | none => .next s
  | some (r, s') =>
    match decode r with
    | .ok i => exec i s'
    | .error e => .refused (refusalOf e)

/-- `s` with the instruction of a table word as its next request. -/
def State.withFetchWord (s : State) (nbits w : Nat) : State := putRequest s (requestOfTableWord nbits w)

end Sys2Proof.Machine
end

