-- ==== Sys2Proof/Safety.lean ====
section
/-! DEFINITION. The terms claims use: the two states of the assembler (43_assembler.md R177), the invariant of R182 with the
legal configuration (R31), expiry, the premise under which it measures true time (60_exceptions.md R233), passes of the scan
loop, runs of several operations, and the segments the received bytes split into (20_memory.md R59). -/

namespace Sys2Proof.Machine

/-- Idle: `buf = []`, `pending_since = none` (R177). -/
def Engine.Idle (e : Engine) : Prop := e.buf = [] ∧ e.pendingSince = none

/-- Pending: `buf[0] = 0x7E`, `pending_since = some(t)`, and no complete frame in `buf` (R177, R182). -/
def Engine.Pending (e : Engine) : Prop :=
  e.buf.head? = some Config.startByte ∧ e.pendingSince.isSome ∧
    (e.buf.length < Config.headerLen ∨ endScan e.buf = none)

/-- What holds between operations: the assembler is Idle or Pending (R182), `cfg_max_payload` is legal (R31), and `buf` is
no longer than the longest bound any legal `cfg_max_payload` gives (R57). -/
def Engine.Inv (e : Engine) : Prop :=
  (e.Idle ∨ e.Pending) ∧ e.cfgMaxPayload.toNat ≤ Config.maxPayloadLimit ∧
    e.buf.length ≤ Config.maxPayloadLimit + Config.overhead

/-- The invariant of the machine. -/
def State.Inv (s : State) : Prop := s.engine.Inv

/-- The pending frame, if there is one, is not expired at `now` (R161). The elapsed time is modular; it is the true one under
`MonotonicClock` (R233). -/
def Engine.Live (now : Time) (e : Engine) : Prop :=
  ∀ t, e.pendingSince = some t → (now - t).toNat ≤ e.cfgTimeout.toNat

/-- What the free-running 32-bit time base shows at a true time, in milliseconds (60_exceptions.md R233;
notes/assumptions/13.md). -/
def clockReading (trueMs : Nat) : Time := BitVec.ofNat 32 trueMs

/-- The premise R233 names for a claim about true time: `t` and `now` are readings of one monotonic clock, at the true times
`tTrue` and `nowTrue`, and less than `2^32` ms pass between them. -/
structure MonotonicClock (t now : Time) (tTrue nowTrue : Nat) : Prop where
  reading_t : t = clockReading tTrue
  reading_now : now = clockReading nowTrue
  monotonic : tTrue ≤ nowTrue
  withinPeriod : nowTrue - tTrue < 2 ^ 32

/-- `n` passes of the scan loop lead from `w` to its end `w'`. -/
inductive Passes (now : Time) : Nat → Scan → Scan → Prop where
  | last {w w' : Scan} : pass now w = .stop w' → Passes now 1 w w'
  | more {n : Nat} {w w1 w' : Scan} : pass now w = .again w1 → Passes now n w1 w' → Passes now (n + 1) w w'

/-- The chunk an instruction delivers to the assembler, with the time of its delivery: FEED, TICK and the received forms. -/
def deliveredBy : Instr → Option (Bytes × Time)
  | .feed chunk now => some (chunk, now)
  | .tick now => some ([], now)
  | .wireStart now => some ([0x7E], now)
  | .wireEnd now => some ([0x7F], now)
  | .wireEsc now => some ([0x7D], now)
  | .wireData value now => some ([value], now)
  | .pairStart now => some ([0x7D, 0x5E], now)
  | .pairEnd now => some ([0x7D, 0x5F], now)
  | .pairEsc now => some ([0x7D, 0x5D], now)
  | .pairAny x now => some ([0x7D, x], now)
  | .frameHeader length crc type now => some ([0x7E] ++ bytesLe32 length ++ bytesLe16 crc ++ [type], now)
  | .framePayload p now => some ([p], now)
  | .frameTrailer now => some ([0x7F], now)
  | .reset | .sessionReset | .statReset | .cfgWrite _ _ | .regRead _ => none
  | .crcInit | .crcUpdate _ | .crcRead | .crcCalc _ => none
  | .escape _ | .encode _ _ | .unescape _ | .decode _ | .diag _ => none

/-- A run of several instructions: the state after the last and what each returned, oldest first, if every one answers a
next state. -/
def execAll : List Instr → State → Option (State × List Response)
  | [], s => some (s, [])
  | i :: rest, s =>
    match exec i s with
    | .next s' => (execAll rest s').map fun r => (r.1, s'.response :: r.2)
    | .fault _ => none
    | .refused _ => none

/-- The events of a run's responses, oldest first. -/
def eventsOf (rs : List Response) : List Event :=
  rs.flatMap fun
    | .assembled out _ => out
    | _ => []

/-- The bytes a list of instructions delivers, oldest first. -/
def fedBy (is : List Instr) : Bytes :=
  is.flatMap fun i =>
    match deliveredBy i with
    | some (chunk, _) => chunk
    | none => []

/-- The frames among a list of events. -/
def framesOf (out : List Event) : List Frame :=
  out.filterMap fun
    | .frame f => some f
    | .error _ => none

/-- How often an error kind stands in a list of events. -/
def errorCount (kind : ErrorKind) (out : List Event) : Nat := out.count (.error kind)

/-- The error kinds a response reports. -/
def errorsOf : Response → List ErrorKind
  | .unescaped (.err kind) => [kind]
  | .decoded (.err kind) => [kind]
  | .diag r =>
    match r.result with
    | .err kind => [kind]
    | .ok _ => []
  | .assembled out _ =>
    out.filterMap fun
      | .error kind => some kind
      | .frame _ => none
  | .none | .ok | .refused | .crc _ | .register _ | .bytes _ => []
  | .unescaped (.ok _) | .decoded (.ok _) => []

/-- What became of a run of received bytes (R59): the wire bytes of an emitted frame, a noise span, or the bytes dropped by
one resync, one overflow or one timeout. -/
inductive Segment where
  | frame (bytes : Bytes) (f : Frame)
  | noise (bytes : Bytes)
  | resync (bytes : Bytes) (kind : ErrorKind)
  | overflow (bytes : Bytes)
  | timeout (bytes : Bytes)
  deriving DecidableEq, Repr

/-- The received bytes of a segment. -/
def Segment.bytes : Segment → Bytes
  | .frame b _ | .noise b | .resync b _ | .overflow b | .timeout b => b

/-- The one event a segment is reported by. -/
def Segment.event : Segment → Event
  | .frame _ f => .frame f
  | .noise _ => .error .framing
  | .resync _ kind => .error kind
  | .overflow _ => .error .bufferOverflow
  | .timeout _ => .error .timeout

/-- The wire bytes an accepted segment adds to `bytesReceived` (R170). -/
def Segment.received : Segment → Nat
  | .frame b _ => b.length
  | .noise _ | .resync _ _ | .overflow _ | .timeout _ => 0

/-- What the bytes of a segment are: a frame decodes to what is emitted; noise holds no `START`; a resync or a timeout drops
one `START` and the bytes to the next; an overflow drops from a `START` on. -/
def Segment.Valid : Segment → Prop
  | .frame b f => decodeFrame b = .ok f
  | .noise b => b ≠ [] ∧ 0x7E ∉ b
  | .resync b kind => (kind = .framing ∨ kind = .crc) ∧ b.head? = some 0x7E ∧ 0x7E ∉ b.tail
  | .overflow b => b.head? = some 0x7E
  | .timeout b => b.head? = some 0x7E ∧ 0x7E ∉ b.tail

end Sys2Proof.Machine
end

