-- ==== Sys2Proof/Certificates/Slice0/Obligations.lean ====
section
/-! DEFINITION. The statements for the provers, by the rules of spec/ they formalise. -/

open Sys2Proof Sys2Proof.Machine

/-! Reset, step, decoding -/

/-- R36 (10_state.md), R200 (44_system.md): what power-on leaves, and `RESET` the same; the parameter is legal (R31). -/
def Obligations.ResetStateHasSpecValues : Prop :=
  State.reset.engine =
      { crc := 0xFFFF, buf := [], pendingSince := none, counters := ⟨0, 0, 0, 0, 0, 0, 0⟩
        cfgMaxPayload := BitVec.ofNat 32 Config.maxPayloadSize.val, cfgTimeout := 1000 } ∧
    State.reset.engine.cfgMaxPayload.toNat = Config.maxPayloadSize.val ∧
    State.reset.engine.cfgMaxPayload.toNat ≤ 2 ^ 32 - 10 ∧
    decode (.op 0x00 []) = .ok .reset ∧ ∀ s : State, ∃ t, exec .reset s = .next t ∧ t.engine = State.reset.engine

/-- R182, R260: the invariant holds after reset, and the assembler is Idle. -/
def Obligations.ResetStateMeetsInvariant : Prop :=
  State.reset.Inv ∧ State.reset.engine.Idle

/-- R7, R60: a step is the `exec` of the oldest request, which is taken off. A request that names no instruction makes the step
refuse by its name: R82 says so of an unknown number, but that a refusal stops the machine, and that operands of other types and
bytes that do not fit their format are refused, is the model's choice (notes/assumptions/9.md). That with no request nothing
happens is the model's choice too (notes/assumptions/1.md). -/
def Obligations.StepRunsDecodedInstruction : Prop :=
  (∀ (s : State) (r : Request) (rest : List Request) (i : Instr), s.requests = r :: rest → decode r = .ok i →
      step s = exec i { s with requests := rest }) ∧
    (∀ (s : State) (r : Request) (rest : List Request) (e : DecodeError), s.requests = r :: rest → decode r = .error e →
      step s = .refused (refusalOf e)) ∧
    ∀ s : State, s.requests = [] → step s = .next s

/-- R82, with the operand types of R81: the sixteen numbers, and every other number names no operation and is refused (no next
state, and so no result). -/
def Obligations.OperationNumbersDecode : Prop :=
  (decode (.op 0x00 []) = .ok .reset ∧ decode (.op 0x01 []) = .ok .sessionReset ∧
    decode (.op 0x02 []) = .ok .statReset ∧
    (∀ reg v, decode (.op 0x03 [.index reg, .word v]) = .ok (.cfgWrite reg v)) ∧
    (∀ reg, decode (.op 0x04 [.index reg]) = .ok (.regRead reg)) ∧
    decode (.op 0x10 []) = .ok .crcInit ∧ (∀ b, decode (.op 0x11 [.byte b]) = .ok (.crcUpdate b)) ∧
    decode (.op 0x12 []) = .ok .crcRead ∧ (∀ d, decode (.op 0x13 [.bytes d]) = .ok (.crcCalc d)) ∧
    (∀ p, decode (.op 0x20 [.bytes p]) = .ok (.escape p)) ∧
    (∀ t p, decode (.op 0x21 [.byte t, .bytes p]) = .ok (.encode t p)) ∧
    (∀ d, decode (.op 0x30 [.bytes d]) = .ok (.unescape d)) ∧ (∀ f, decode (.op 0x31 [.bytes f]) = .ok (.decode f)) ∧
    (∀ f, decode (.op 0x32 [.bytes f]) = .ok (.diag f)) ∧
    (∀ c now, decode (.op 0x40 [.bytes c, .word now]) = .ok (.feed c now)) ∧
    ∀ now, decode (.op 0x41 [.word now]) = .ok (.tick now)) ∧
  ∀ (number : Byte) (operands : List Operand) (s : State) (rest : List Request),
    number.toNat ∉ [0x00, 0x01, 0x02, 0x03, 0x04, 0x10, 0x11, 0x12, 0x13, 0x20, 0x21, 0x30, 0x31, 0x32, 0x40, 0x41] →
    s.requests = .op number operands :: rest →
    decode (.op number operands) = .error (.unknownOperation number) ∧
      step s = .refused (.unknownOperation number)

/-- Words of each family, written out from R70, R75, R76, R81 and R82. -/
def Obligations.SampleWordsDecode : Prop :=
  decodeTableWord 8 0x00 = some .reset ∧
    decodeTableWord 8 0x11 = some (.crcUpdate 0) ∧
    decodeTableWord 8 0x21 = some (.encode 0 []) ∧
    decodeTableWord 8 0x31 = some (.decode []) ∧
    decodeTableWord 8 0x40 = some (.feed [] 0) ∧
    decodeTableWord 8 0x7E = some (.wireStart 0) ∧
    decodeTableWord 16 0x7D5E = some (.pairStart 0) ∧
    decodeTableWord 16 0x7D00 = some (.pairAny 0x00 0) ∧
    decode (.op 0x03 [.index 1, .word 4]) = .ok (.cfgWrite 1 4) ∧
    decode (.wire .frameHeader [0x7E, 0x07, 0x00, 0x00, 0x00, 0x94, 0x89, 0x01] 5) = .ok (.frameHeader 7 0x8994 0x01 5) ∧
    decode (.wire .frameTrailer [0x7F] 5) = .ok (.frameTrailer 5)

/-- The decoder and the encoder agree in both directions: a request decodes to an instruction exactly when that instruction is
well formed and the request is its encoding. -/
def Obligations.DecodeEncodeAgree : Prop :=
  ∀ (r : Request) (i : Instr), decode r = .ok i ↔ (i.wf = true ∧ encode i = r)

/-! System operations -/

/-- R200, R201, R202 (44_system.md). -/
def Obligations.ResetsComplete : Prop :=
  ∀ s : State,
    decode (.op 0x00 []) = .ok .reset ∧ decode (.op 0x01 []) = .ok .sessionReset ∧
    decode (.op 0x02 []) = .ok .statReset ∧
    exec .reset s = .next { s with
      engine :=
        { crc := 0xFFFF, buf := [], pendingSince := none, counters := ⟨0, 0, 0, 0, 0, 0, 0⟩
          cfgMaxPayload := BitVec.ofNat 32 Config.maxPayloadSize.val, cfgTimeout := 1000 }
      response := .none } ∧
    exec .sessionReset s = .next { s with
      engine := { s.engine with buf := [], pendingSince := none }
      response := .none } ∧
    exec .statReset s = .next { s with
      engine := { s.engine with counters := ⟨0, 0, 0, 0, 0, 0, 0⟩ }
      response := .none }

/-- R203: a write to register 1 of at most 2^32 - 10, or to register 2, is done; every other is refused and changes nothing. -/
def Obligations.CfgWriteCompletes : Prop :=
  ∀ (reg : Nat) (v : U32) (s : State),
    decode (.op 0x03 [.index reg, .word v]) = .ok (.cfgWrite reg v) ∧
    exec (.cfgWrite reg v) s =
      if reg = 1 ∧ v.toNat ≤ 2 ^ 32 - 10 then
        .next { s with engine := { s.engine with cfgMaxPayload := v }, response := .ok }
      else if reg = 2 then .next { s with engine := { s.engine with cfgTimeout := v }, response := .ok }
      else .next { s with response := .refused }

/-- R204 with the register map of R33: each numbered register's value; 6, 7 and 15 upward are refused; nothing changes. -/
def Obligations.RegReadReturnsRegister : Prop :=
  ∀ s : State,
    let answers := fun (reg : Nat) (v : U32) => exec (.regRead reg) s = .next { s with response := .register v }
    (∀ reg, decode (.op 0x04 [.index reg]) = .ok (.regRead reg)) ∧
    answers 0 (s.engine.crc.zeroExtend 32) ∧
    answers 1 s.engine.cfgMaxPayload ∧
    answers 2 s.engine.cfgTimeout ∧
    answers 3 (BitVec.ofNat 32
      ((if s.engine.buf = [] then 0 else 1) + (if s.engine.pendingSince = none then 0 else 2))) ∧
    (s.engine.buf.length < 2 ^ 32 → ∃ v : U32, v.toNat = s.engine.buf.length ∧ answers 4 v) ∧
    (∀ t, s.engine.pendingSince = some t → answers 5 t) ∧
    (s.engine.pendingSince = none → answers 5 0) ∧
    answers 8 s.engine.counters.messagesReceived ∧
    answers 9 s.engine.counters.bytesReceived ∧
    answers 10 s.engine.counters.framingErrors ∧
    answers 11 s.engine.counters.crcErrors ∧
    answers 12 s.engine.counters.escapeErrors ∧
    answers 13 s.engine.counters.overflowErrors ∧
    answers 14 s.engine.counters.timeoutErrors ∧
    ∀ reg, reg = 6 ∨ reg = 7 ∨ 15 ≤ reg → exec (.regRead reg) s = .next { s with response := .refused }

/-! The CRC unit -/

/-- R103, R104, R105. -/
def Obligations.StreamingCrcOperationsComplete : Prop :=
  ∀ (s : State) (b : Byte),
    decode (.op 0x10 []) = .ok .crcInit ∧ decode (.op 0x11 [.byte b]) = .ok (.crcUpdate b) ∧
    decode (.op 0x12 []) = .ok .crcRead ∧
    exec .crcInit s = .next { s with engine := { s.engine with crc := 0xFFFF }, response := .none } ∧
    exec (.crcUpdate b) s =
      .next { s with engine := { s.engine with crc := crcStep s.engine.crc b }, response := .none } ∧
    exec .crcRead s = .next { s with response := .crc s.engine.crc }

/-- R106: `CRC.CALC` returns `crc16(data)` and writes no state. -/
def Obligations.CrcCalcCompletes : Prop :=
  ∀ (s : State) (data : Bytes),
    decode (.op 0x13 [.bytes data]) = .ok (.crcCalc data) ∧
    exec (.crcCalc data) s = .next { s with response := .crc (crc16 data) }

/-- R100, R101: the one-byte step, and the fold over the sequence from `0xFFFF`. -/
def Obligations.CrcFollowsBitLoop : Prop :=
  (∀ (c : U16) (b : Byte), crcStep c b =
      (List.range 8).foldl (fun (c : U16) _ => if c.getLsbD 0 then (c >>> 1) ^^^ 0xA001 else c >>> 1) (c ^^^ b.zeroExtend 16)) ∧
    ∀ data : Bytes, crc16 data = data.foldl crcStep 0xFFFF

/-- R109: the check values. -/
def Obligations.CrcCheckValues : Prop :=
  crc16 [] = 0xFFFF ∧ crc16 [0x31, 0x32, 0x33, 0x34, 0x35, 0x36, 0x37, 0x38, 0x39] = 0x4B37

/-- R108: the bit-serial view, data bits least significant first. -/
def Obligations.CrcStepEqualsBitSerial : Prop :=
  ∀ (c : U16) (b : Byte), crcStep c b =
    (List.range 8).foldl (fun (c : U16) k => if c.getLsbD 0 != b.getLsbD k then (c >>> 1) ^^^ 0xA001 else c >>> 1) c

/-- R83: a streaming computation gives what `CRC.CALC` gives, and touches nothing but `crc`. -/
def Obligations.StreamingCrcEqualsCrcCalc : Prop :=
  ∀ (s : State) (data : Bytes),
    execAll ([.crcInit] ++ data.map .crcUpdate ++ [.crcRead]) s =
      some ({ s with engine := { s.engine with crc := crc16 data }, response := .crc (crc16 data) },
        List.replicate (data.length + 1) .none ++ [.crc (crc16 data)]) ∧
    exec (.crcCalc data) s = .next { s with response := .crc (crc16 data) }

/-- R107: `crc16` is affine over XOR on sequences of one length. -/
def Obligations.CrcIsAffine : Prop :=
  ∀ a b : Bytes, a.length = b.length →
    crc16 (List.zipWith (· ^^^ ·) a b) = crc16 a ^^^ crc16 b ^^^ crc16 (List.replicate a.length 0)

/-- R110: two different sequences of one length whose bits, taken least significant first, differ only inside a window of 16
consecutive bits have different CRCs; (a) is the window of one bit. -/
def Obligations.CrcDetectsBursts : Prop :=
  ∀ (a b : Bytes) (w : Nat), a.length = b.length → a ≠ b →
    (∀ j, (byteAt a (j / 8)).getLsbD (j % 8) ≠ (byteAt b (j / 8)).getLsbD (j % 8) → w ≤ j ∧ j < w + 16) →
    crc16 a ≠ crc16 b

/-! The framer -/

/-- R121: `ESCAPE`. -/
def Obligations.EscapeCompletes : Prop :=
  ∀ (p : Bytes) (s : State), decode (.op 0x20 [.bytes p]) = .ok (.escape p) ∧ exec (.escape p) s = .next { s with
    response := .bytes (p.flatMap fun b =>
      if b = 0x7E ∨ b = 0x7F ∨ b = 0x7D then [0x7D, b ^^^ 0x20] else [b]) }

/-- R125, R121: the result of `ESCAPE` holds no `7E` and no `7F`, every `7D` in it is followed by a canonical second byte, its
length is that of the payload and one more for each reserved byte, `UNESCAPE` gives the payload back, and `ESCAPE` is
injective. -/
def Obligations.EscapedStreamProperties : Prop :=
  ∀ p : Bytes,
    0x7E ∉ escapeBytes p ∧ 0x7F ∉ escapeBytes p ∧
    (∀ a b, escapeBytes p = a ++ 0x7D :: b → ∃ x rest, b = x :: rest ∧ (x = 0x5D ∨ x = 0x5E ∨ x = 0x5F)) ∧
    (escapeBytes p).length = p.length + p.countP (fun b => b = 0x7E ∨ b = 0x7F ∨ b = 0x7D) ∧
    unescapeBytes (escapeBytes p) = .ok p ∧
    ∀ q, escapeBytes q = escapeBytes p → q = p

/-- R122 with the layout of R70, R72, R73: the bytes of the frame, in order. -/
def Obligations.EncodeCompletes : Prop :=
  ∀ (t : Byte) (p : Bytes) (s : State), p.length < 2 ^ 32 →
    decode (.op 0x21 [.byte t, .bytes p]) = .ok (.encode t p) ∧
    exec (.encode t p) s = .next { s with
      response := .bytes (
        [0x7E, BitVec.ofNat 8 p.length, BitVec.ofNat 8 (p.length / 2 ^ 8), BitVec.ofNat 8 (p.length / 2 ^ 16),
          BitVec.ofNat 8 (p.length / 2 ^ 24), BitVec.ofNat 8 (crc16 p).toNat, BitVec.ofNat 8 ((crc16 p).toNat / 2 ^ 8), t]
        ++ escapeBytes p ++ [0x7F]) }

/-- R123: a payload of 2^32 bytes or more has no encoding and is refused; every other is encoded, whatever `cfg_max_payload`
is. -/
def Obligations.EncodeRefusesLongPayload : Prop :=
  ∀ (t : Byte) (p : Bytes) (s : State),
    (2 ^ 32 ≤ p.length → exec (.encode t p) s = .refused .payloadTooLong) ∧
    (p.length < 2 ^ 32 → ∃ f, ∀ m, exec (.encode t p) { s with engine := { s.engine with cfgMaxPayload := m } } =
      .next { s with engine := { s.engine with cfgMaxPayload := m }, response := .bytes f })

/-- R124: length, first and last byte, no marker between, the first unescaped `END` is the last byte, injectivity. -/
def Obligations.EncodedFrameShape : Prop :=
  ∀ (t : Byte) (p : Bytes), p.length < 2 ^ 32 →
    (encodeFrame t p).length = 9 + p.length + p.countP (fun b => b = 0x7E ∨ b = 0x7F ∨ b = 0x7D) ∧
    byteAt (encodeFrame t p) 0 = 0x7E ∧
    byteAt (encodeFrame t p) ((encodeFrame t p).length - 1) = 0x7F ∧
    (∀ k, 8 ≤ k → k + 1 < (encodeFrame t p).length →
      byteAt (encodeFrame t p) k ≠ 0x7E ∧ byteAt (encodeFrame t p) k ≠ 0x7F) ∧
    endScan (encodeFrame t p) = some ((encodeFrame t p).length - 1) ∧
    ∀ t' p', p'.length < 2 ^ 32 → encodeFrame t' p' = encodeFrame t p → t' = t ∧ p' = p

/-! The un-stuffer, the frame checker, the diagnostic -/

/-- R140: every operand is a sequence of literals other than `7D` and of pairs `7D x`, with or without one more
`7D` at the end. Without it the result is the literals and the `x XOR 20` in order; with it, `EscapeSequenceError`. -/
def Obligations.UnescapeCompletes : Prop :=
  ∀ d : Bytes, ∃ tokens : List (Byte ⊕ Byte), (∀ b, Sum.inl b ∈ tokens → b ≠ 0x7D) ∧
    let wire : Bytes := tokens.flatMap (Sum.elim (fun b => [b]) (fun x => [0x7D, x]))
    let value : Bytes := tokens.map (Sum.elim id (fun x => x ^^^ 0x20))
    ∀ s : State, decode (.op 0x30 [.bytes d]) = .ok (.unescape d) ∧
      ((d = wire ∧ exec (.unescape d) s = .next { s with response := .unescaped (.ok value) }) ∨
      (d = wire ++ [0x7D] ∧ exec (.unescape d) s = .next { s with response := .unescaped (.err .escapeSequence) }))

/-- R76, R77: what the pairs stand for; a pair whose second byte no encoder produces is accepted. -/
def Obligations.EscapePairsUnescape : Prop :=
  ∀ s : State,
    (∀ x : Byte, exec (.unescape [0x7D, x]) s = .next { s with response := .unescaped (.ok [x ^^^ 0x20]) }) ∧
    exec (.unescape [0x7D, 0x5E]) s = .next { s with response := .unescaped (.ok [0x7E]) } ∧
    exec (.unescape [0x7D, 0x5F]) s = .next { s with response := .unescaped (.ok [0x7F]) } ∧
    exec (.unescape [0x7D, 0x5D]) s = .next { s with response := .unescaped (.ok [0x7D]) }

/-- R141, R228: the steps of `DECODE` in their order; the first that fails decides. -/
def Obligations.DecodeCompletes : Prop :=
  ∀ (f : Bytes) (s : State),
    let n := f.length
    let answers := fun r : Result Frame => exec (.decode f) s = .next { s with response := .decoded r }
    let declaredLength := (byteAt f 1).toNat + 256 * (byteAt f 2).toNat + 65536 * (byteAt f 3).toNat +
      16777216 * (byteAt f 4).toNat
    let declaredCrc := (byteAt f 5).toNat + 256 * (byteAt f 6).toNat
    decode (.op 0x31 [.bytes f]) = .ok (.decode f) ∧
    (n < 8 → answers (.err .framing)) ∧
    (8 ≤ n → byteAt f 0 ≠ 0x7E ∨ byteAt f (n - 1) ≠ 0x7F → answers (.err .framing)) ∧
    (8 ≤ n → byteAt f 0 = 0x7E → byteAt f (n - 1) = 0x7F →
      (unescapeBytes ((f.take (n - 1)).drop 8) = .err .escapeSequence → answers (.err .escapeSequence)) ∧
      ∀ p, unescapeBytes ((f.take (n - 1)).drop 8) = .ok p →
        (p.length ≠ declaredLength → answers (.err .framing)) ∧
        (p.length = declaredLength → (crc16 p).toNat ≠ declaredCrc → answers (.err .crc)) ∧
        (p.length = declaredLength → (crc16 p).toNat = declaredCrc → answers (.ok ⟨byteAt f 7, p⟩)))

/-- R142: exactly one 8-byte input is accepted. -/
def Obligations.EightByteCorner : Prop :=
  ∀ (f : Bytes) (s : State) (r : Frame), f.length = 8 →
    (exec (.decode f) s = .next { s with response := .decoded (.ok r) } ↔
      f = [0x7E, 0x00, 0x00, 0x00, 0x00, 0xFF, 0xFF, 0x7F] ∧ r = ⟨0x7F, []⟩)

/-- R127: the round trip, for every message type and every payload that `ENCODE` takes. -/
def Obligations.FrameRoundTrip : Prop :=
  ∀ (t : Byte) (p : Bytes) (s : State), p.length < 2 ^ 32 →
    ∃ f, exec (.encode t p) s = .next { s with response := .bytes f } ∧
      exec (.decode f) s = .next { s with response := .decoded (.ok ⟨t, p⟩) }

/-- R145: one flipped bit in the payload region of an encoded frame. The result is never `Ok`; it is `FramingError` when the
flip destroys the `7D` of a pair, and `CrcError` when neither the old nor the new byte is `7D`. -/
def Obligations.BitFlipNeverAccepted : Prop :=
  ∀ (t : Byte) (p : Bytes) (k bit : Nat) (s : State), p.length < 2 ^ 32 → k < (escapeBytes p).length → bit < 8 →
    let f := encodeFrame t p
    let flipped := byteAt f (8 + k) ^^^ (1#8 <<< bit)
    let g := f.set (8 + k) flipped
    ∃ kind, exec (.decode g) s = .next { s with response := .decoded (.err kind) } ∧
      (byteAt f (8 + k) = 0x7D → kind = .framing) ∧
      (byteAt f (8 + k) ≠ 0x7D → flipped ≠ 0x7D → kind = .crc)

/-- R273: the CRC does not cover the message type; a frame with another type byte is accepted with that type. -/
def Obligations.TypeByteNotCovered : Prop :=
  ∀ (f p : Bytes) (t t' : Byte) (s : State), 9 ≤ f.length →
    exec (.decode f) s = .next { s with response := .decoded (.ok ⟨t, p⟩) } →
    exec (.decode (f.set 7 t')) s = .next { s with response := .decoded (.ok ⟨t', p⟩) }

/-- R146: the record of `DIAG`, and the law that its result is `Ok` exactly when every check passed. -/
def Obligations.DiagCompletes : Prop :=
  ∀ (f : Bytes) (s : State), decode (.op 0x32 [.bytes f]) = .ok (.diag f) ∧
    ∃ r : DiagRecord, exec (.diag f) s = .next { s with response := .diag r } ∧
    (r.tooShort = true ↔ f.length < 8) ∧
    (r.startOk = true ↔ 1 ≤ f.length ∧ byteAt f 0 = 0x7E) ∧
    (r.endOk = true ↔ 1 ≤ f.length ∧ byteAt f (f.length - 1) = 0x7F) ∧
    r.result = decodeFrame f ∧
    (f.length < 8 → r.declaredLength = none ∧ r.declaredCrc = none ∧ r.msgType = none ∧ r.escapeOk = none ∧
      r.actualLength = none ∧ r.lengthMatch = none ∧ r.computedCrc = none ∧ r.crcMatch = none) ∧
    (8 ≤ f.length → r.declaredLength = some (le32 f 1) ∧ r.declaredCrc = some (le16 f 5) ∧ r.msgType = some (byteAt f 7) ∧
      (∀ p, unescapeBytes ((f.take (f.length - 1)).drop 8) = .ok p →
        r.escapeOk = some true ∧ r.actualLength = some p.length ∧
        r.lengthMatch = some (decide (p.length = (le32 f 1).toNat)) ∧ r.computedCrc = some (crc16 p) ∧
        r.crcMatch = some (decide (crc16 p = le16 f 5))) ∧
      (∀ k, unescapeBytes ((f.take (f.length - 1)).drop 8) = .err k →
        r.escapeOk = some false ∧ r.actualLength = none ∧ r.lengthMatch = none ∧ r.computedCrc = none ∧
        r.crcMatch = none)) ∧
    ((∃ fr, r.result = .ok fr) ↔
      r.tooShort = false ∧ r.startOk = true ∧ r.endOk = true ∧ r.escapeOk = some true ∧ r.lengthMatch = some true ∧
        r.crcMatch = some true)

/-! The assembler, rule by rule -/

/-- R168: the END scan finds the least offset, 8 or more, of a `7F` that no open `ESC` stands before; an `ESC` is open before an
offset exactly when the run of `7D` that ends there, counted back no further than offset 8, is odd. -/
def Obligations.EndScanFindsFirstUnescapedEnd : Prop :=
  ∀ (buf : Bytes) (i : Nat),
    let run := fun k => (((buf.take k).drop 8).reverse.takeWhile (· == 0x7D)).length
    endScan buf = some i ↔
      8 ≤ i ∧ i < buf.length ∧ byteAt buf i = 0x7F ∧ run i % 2 = 0 ∧
        ∀ j, 8 ≤ j → j < i → byteAt buf j = 0x7F → run j % 2 = 1

/-- R160, R174, R176: `FEED` and `TICK` always complete; they return the events and a copy of `buf`; the CRC register and the
configuration do not change. -/
def Obligations.FeedCompletes : Prop :=
  ∀ (chunk : Bytes) (now : Time) (s : State), decode (.op 0x40 [.bytes chunk, .word now]) = .ok (.feed chunk now) ∧
    ∃ out e, exec (.feed chunk now) s = .next { s with engine := e, response := .assembled out e.buf } ∧
    e.crc = s.engine.crc ∧ e.cfgMaxPayload = s.engine.cfgMaxPayload ∧ e.cfgTimeout = s.engine.cfgTimeout

/-- R176: `TICK(now)` is `FEED([], now)`. -/
def Obligations.TickIsEmptyFeed : Prop :=
  ∀ (now : Time) (s : State), decode (.op 0x41 [.word now]) = .ok (.tick now) ∧
    ∃ t, exec (.feed [] now) s = .next t ∧ exec (.tick now) s = .next t

/-- R70, R72 to R77: each received form of the opcode table is the delivery of its bytes in wire order, in one chunk (that it
is one chunk of its own is the model's choice, notes/assumptions/3.md), and the decoder reads exactly those bytes as that form:
a byte or a pair of a more special row is never read as `WIRE.DATA` or `PAIR.ANY`, and whatever bytes decode to a form are the
bytes it delivers. -/
def Obligations.ReceivedFormsComplete : Prop :=
  ∀ (now : Time) (s : State) (length : U32) (crc : U16) (type x : Byte),
    let delivers := fun (i : Instr) (chunk : Bytes) => ∃ t, exec (.feed chunk now) s = .next t ∧ exec i s = .next t
    let decodes := fun (form : WireForm) (chunk : Bytes) (i : Instr) => decode (.wire form chunk now) = .ok i
    let header : Bytes :=
      [0x7E, BitVec.ofNat 8 length.toNat, BitVec.ofNat 8 (length.toNat / 2 ^ 8), BitVec.ofNat 8 (length.toNat / 2 ^ 16),
        BitVec.ofNat 8 (length.toNat / 2 ^ 24), BitVec.ofNat 8 crc.toNat, BitVec.ofNat 8 (crc.toNat / 2 ^ 8), type]
    decodes .wireByte [0x7E] (.wireStart now) ∧
    decodes .wireByte [0x7F] (.wireEnd now) ∧
    decodes .wireByte [0x7D] (.wireEsc now) ∧
    (x ≠ 0x7E → x ≠ 0x7F → x ≠ 0x7D → decodes .wireByte [x] (.wireData x now)) ∧
    decodes .escapePair [0x7D, 0x5E] (.pairStart now) ∧
    decodes .escapePair [0x7D, 0x5F] (.pairEnd now) ∧
    decodes .escapePair [0x7D, 0x5D] (.pairEsc now) ∧
    (x ≠ 0x5E → x ≠ 0x5F → x ≠ 0x5D → decodes .escapePair [0x7D, x] (.pairAny x now)) ∧
    decodes .frameHeader header (.frameHeader length crc type now) ∧
    decodes .framePayload [x] (.framePayload x now) ∧
    decodes .frameTrailer [0x7F] (.frameTrailer now) ∧
    (∀ (form : WireForm) (chunk : Bytes) (i : Instr), decodes form chunk i → deliveredBy i = some (chunk, now)) ∧
    delivers (.wireStart now) [0x7E] ∧
    delivers (.wireEnd now) [0x7F] ∧
    delivers (.wireEsc now) [0x7D] ∧
    delivers (.wireData x now) [x] ∧
    delivers (.pairStart now) [0x7D, 0x5E] ∧
    delivers (.pairEnd now) [0x7D, 0x5F] ∧
    delivers (.pairEsc now) [0x7D, 0x5D] ∧
    delivers (.pairAny x now) [0x7D, x] ∧
    delivers (.frameHeader length crc type now) header ∧
    delivers (.framePayload x now) [x] ∧
    delivers (.frameTrailer now) [0x7F]

/-- R161, R167: a pending frame that is expired is dropped up to the next `START`, one `TimeoutError` is reported and counted,
and the rest of the operation is that of an engine with no pending frame. The elapsed time is modular; `TimeoutMeasuresTrueTime`
says the same of true time, under the premise of R233. -/
def Obligations.FeedTimesOut : Prop :=
  ∀ (chunk dropped rest : Bytes) (now t0 : Time) (s : State), s.engine.pendingSince = some t0 →
    s.engine.cfgTimeout.toNat < (now - t0).toNat →
    s.engine.buf = dropped ++ rest → dropped ≠ [] → 0x7E ∉ dropped.tail → (rest = [] ∨ ∃ b, rest = 0x7E :: b) →
    ∃ (out : List Event) (t : State),
      exec (.feed chunk now) { s with
        engine := { s.engine with
          buf := rest, pendingSince := none
          counters := { s.engine.counters with timeoutErrors := satInc s.engine.counters.timeoutErrors 1 } } } =
        .next { t with response := .assembled out t.engine.buf } ∧
      exec (.feed chunk now) s = .next { t with response := .assembled (.error .timeout :: out) t.engine.buf }

/-- R233: the modular elapsed time is the true one under the named premise `MonotonicClock`; if `now` goes backwards it
is large, `2^32` less the step back. -/
def Obligations.ElapsedEqualsTrueTime : Prop :=
  (∀ (t now : Time) (tTrue nowTrue : Nat), MonotonicClock t now tTrue nowTrue → elapsed now t = nowTrue - tTrue) ∧
    ∀ tTrue nowTrue : Nat, nowTrue < tTrue → tTrue - nowTrue < 2 ^ 32 →
      elapsed (clockReading nowTrue) (clockReading tTrue) = 2 ^ 32 - (tTrue - nowTrue)

/-- R161 with the premise of R233: in every delivery, under `MonotonicClock`, the pending frame is reported as timed out, first
and once, exactly when more than `cfg_timeout` true milliseconds have passed since its timestamp. If `now` goes backwards by
less than `2^32 - cfg_timeout` it is timed out too. -/
def Obligations.TimeoutMeasuresTrueTime : Prop :=
  ∀ (i : Instr) (chunk : Bytes) (t now : Time) (tTrue nowTrue : Nat) (s : State),
    deliveredBy i = some (chunk, now) → s.engine.pendingSince = some t →
    ∃ out u, exec i s = .next u ∧ u.response = .assembled out u.engine.buf ∧
      let timesOut := out.head? = some (.error .timeout) ∧ errorCount .timeout out = 1 ∧
        u.engine.counters.timeoutErrors = satInc s.engine.counters.timeoutErrors 1
      let doesNot := .error .timeout ∉ out ∧ u.engine.counters.timeoutErrors = s.engine.counters.timeoutErrors
      (MonotonicClock t now tTrue nowTrue →
        if nowTrue - tTrue ≤ s.engine.cfgTimeout.toNat then doesNot else timesOut) ∧
      (t = clockReading tTrue → now = clockReading nowTrue → nowTrue < tTrue →
        tTrue - nowTrue + s.engine.cfgTimeout.toNat < 2 ^ 32 → timesOut)

/-- R162, R163, R165: nothing received leaves nothing to do; a buffer with no `START` is one noise span. -/
def Obligations.FeedWithoutStart : Prop :=
  ∀ (chunk : Bytes) (now : Time) (s : State), s.engine.Live now → 0x7E ∉ s.engine.buf ++ chunk →
    (s.engine.buf ++ chunk = [] → exec (.feed chunk now) s = .next { s with response := .assembled [] [] }) ∧
    (s.engine.buf ++ chunk ≠ [] → exec (.feed chunk now) s = .next { s with
      engine := { s.engine with
        buf := []
        counters := { s.engine.counters with framingErrors := satInc s.engine.counters.framingErrors 1 } }
      response := .assembled [.error .framing] [] })

/-- R164: the bytes before the first `START` are one noise span, and the rest of the operation is as if they had not come. -/
def Obligations.FeedDiscardsNoise : Prop :=
  ∀ (chunk noise b : Bytes) (now : Time) (s : State), s.engine.Live now →
    s.engine.buf ++ chunk = noise ++ 0x7E :: b → noise ≠ [] → 0x7E ∉ noise →
    ∃ (out : List Event) (t : State),
      exec (.feed [] now) { s with
        engine := { s.engine with
          buf := 0x7E :: b
          counters := { s.engine.counters with framingErrors := satInc s.engine.counters.framingErrors 1 } } } =
        .next { t with response := .assembled out t.engine.buf } ∧
      exec (.feed chunk now) s = .next { t with response := .assembled (.error .framing :: out) t.engine.buf }

/-- R166, R173, R175: a candidate shorter than a header, or with no `END` and within the bound, waits; the timestamp is taken
once. -/
def Obligations.FeedWaits : Prop :=
  ∀ (chunk b : Bytes) (now : Time) (s : State), s.engine.Live now → s.engine.buf ++ chunk = 0x7E :: b →
    ((0x7E :: b).length < 8 ∨
      (endScan (0x7E :: b) = none ∧ (0x7E :: b).length ≤ s.engine.cfgMaxPayload.toNat + 9)) →
    exec (.feed chunk now) s = .next { s with
      engine := { s.engine with buf := 0x7E :: b, pendingSince := some (s.engine.pendingSince.getD now) }
      response := .assembled [] (0x7E :: b) }

/-- R172: a candidate of at least a header, with no `END` and over the bound, empties the whole buffer. -/
def Obligations.FeedOverflows : Prop :=
  ∀ (chunk b : Bytes) (now : Time) (s : State), s.engine.Live now → s.engine.buf ++ chunk = 0x7E :: b →
    8 ≤ (0x7E :: b).length → endScan (0x7E :: b) = none →
    s.engine.cfgMaxPayload.toNat + 9 < (0x7E :: b).length →
    exec (.feed chunk now) s = .next { s with
      engine := { s.engine with
        buf := [], pendingSince := none
        counters := { s.engine.counters with overflowErrors := satInc s.engine.counters.overflowErrors 1 } }
      response := .assembled [.error .bufferOverflow] [] }

/-- R169, R170: the slice up to the `END` decodes; the frame is emitted and counted, and the operation goes on behind it. -/
def Obligations.FeedAcceptsFrame : Prop :=
  ∀ (chunk b : Bytes) (now : Time) (s : State) (i : Nat) (f : Frame), s.engine.Live now →
    s.engine.buf ++ chunk = 0x7E :: b → endScan (0x7E :: b) = some i →
    decodeFrame ((0x7E :: b).take (i + 1)) = .ok f →
    ∃ (out : List Event) (t : State),
      exec (.feed [] now) { s with
        engine := { s.engine with
          buf := (0x7E :: b).drop (i + 1), pendingSince := none
          counters := { s.engine.counters with
            messagesReceived := satInc s.engine.counters.messagesReceived 1
            bytesReceived := satInc s.engine.counters.bytesReceived (i + 1) } } } =
        .next { t with response := .assembled out t.engine.buf } ∧
      exec (.feed chunk now) s = .next { t with response := .assembled (.frame f :: out) t.engine.buf }

/-- R169, R171, R167: the slice up to the `END` does not decode; the error is `FramingError` or `CrcError`, it is reported and
counted, and the operation goes on at the next `START` after the failed one. -/
def Obligations.FeedRejectsFrame : Prop :=
  ∀ (chunk x rest : Bytes) (now : Time) (s : State) (i : Nat) (kind : ErrorKind), s.engine.Live now →
    s.engine.buf ++ chunk = 0x7E :: (x ++ rest) → 0x7E ∉ x → (rest = [] ∨ ∃ b, rest = 0x7E :: b) →
    endScan (0x7E :: (x ++ rest)) = some i →
    decodeFrame ((0x7E :: (x ++ rest)).take (i + 1)) = .err kind →
    (kind = .framing ∨ kind = .crc) ∧
    ∃ (out : List Event) (t : State),
      exec (.feed [] now) { s with
        engine := { s.engine with
          buf := rest, pendingSince := none
          counters :=
            if kind = .framing then
              { s.engine.counters with framingErrors := satInc s.engine.counters.framingErrors 1 }
            else { s.engine.counters with crcErrors := satInc s.engine.counters.crcErrors 1 } } } =
        .next { t with response := .assembled out t.engine.buf } ∧
      exec (.feed chunk now) s = .next { t with response := .assembled (.error kind :: out) t.engine.buf }

/-- R183: the scan loop of every `FEED` ends after at most `len(buf) + 1` passes, counted after the append, and `FEED`'s answer
is the one it ends with. -/
def Obligations.ScanLoopTerminates : Prop :=
  ∀ (chunk : Bytes) (now : Time) (e : Engine),
    let w := (expire now ⟨e, []⟩).onEngine fun e => e.append chunk
    ∃ n, n ≤ w.engine.buf.length + 1 ∧ Passes now n w (assemble chunk now e)

/-! The assembler as a whole -/

/-- R182 with R31 and R57: every step keeps the invariant. -/
def Obligations.StepKeepsInvariant : Prop :=
  ∀ s t : State, s.Inv → step s = .next t → t.Inv

/-- R57, R182: after every delivery, from any state, the buffer is within the bound of the `cfg_max_payload` in force. -/
def Obligations.BufferWithinBound : Prop :=
  ∀ (i : Instr) (chunk : Bytes) (now : Time) (s t : State), deliveredBy i = some (chunk, now) → exec i s = .next t →
    t.engine.buf.length ≤ t.engine.cfgMaxPayload.toNat + 9

/-- R25, R177: between operations the two status bits agree. -/
def Obligations.StatusBitsAgree : Prop :=
  ∀ s t : State, s.Inv → step s = .next t → (t.engine.bufNonempty = t.engine.pending)

/-- R185: an empty chunk that finds no expiry and a buffer within the bound changes nothing. -/
def Obligations.EmptyDeliveryChangesNothing : Prop :=
  ∀ (now : Time) (s : State), s.Inv → s.engine.Live now →
    s.engine.buf.length ≤ s.engine.cfgMaxPayload.toNat + 9 →
    exec (.feed [] now) s = .next { s with response := .assembled [] s.engine.buf } ∧
    exec (.tick now) s = .next { s with response := .assembled [] s.engine.buf }

/-- R59: in a run with no `RESET` and no `SESSION.RESET`, the bytes that waited and the bytes received split, in order, into the
segments the events report, one event each, and the bytes that wait at the end. -/
def Obligations.ReceivedBytesConserved : Prop :=
  ∀ (is : List Instr) (s t : State) (rs : List Response), s.Inv → .reset ∉ is → .sessionReset ∉ is →
    execAll is s = some (t, rs) →
    ∃ segs : List Segment, s.engine.buf ++ fedBy is = segs.flatMap Segment.bytes ++ t.engine.buf ∧
      eventsOf rs = segs.map Segment.event ∧ ∀ g ∈ segs, g.Valid

/-- R28, R29, R170, R227: in one delivery every counter rises by what the events report, and saturates. -/
def Obligations.CountersCountEvents : Prop :=
  ∀ (chunk : Bytes) (now : Time) (s t : State) (out : List Event), s.Inv →
    exec (.feed chunk now) s = .next t → t.response = .assembled out t.engine.buf →
    let rises := fun (before after : U32) (k : Nat) => after.toNat = min (before.toNat + k) (2 ^ 32 - 1)
    rises s.engine.counters.messagesReceived t.engine.counters.messagesReceived (framesOf out).length ∧
    rises s.engine.counters.framingErrors t.engine.counters.framingErrors (errorCount .framing out) ∧
    rises s.engine.counters.crcErrors t.engine.counters.crcErrors (errorCount .crc out) ∧
    rises s.engine.counters.escapeErrors t.engine.counters.escapeErrors (errorCount .escapeSequence out) ∧
    rises s.engine.counters.overflowErrors t.engine.counters.overflowErrors (errorCount .bufferOverflow out) ∧
    rises s.engine.counters.timeoutErrors t.engine.counters.timeoutErrors (errorCount .timeout out) ∧
    ∃ segs : List Segment, s.engine.buf ++ chunk = segs.flatMap Segment.bytes ++ t.engine.buf ∧
      out = segs.map Segment.event ∧ (∀ g ∈ segs, g.Valid) ∧
      rises s.engine.counters.bytesReceived t.engine.counters.bytesReceived (segs.map Segment.received).sum

/-- R223: `EscapeSequenceError` never arises inside the assembler. -/
def Obligations.AssemblerNeverReportsEscapeError : Prop :=
  ∀ (i : Instr) (chunk : Bytes) (now : Time) (s t : State) (out : List Event), deliveredBy i = some (chunk, now) →
    exec i s = .next t → t.response = .assembled out t.engine.buf →
    .error .escapeSequence ∉ out ∧ t.engine.counters.escapeErrors = s.engine.counters.escapeErrors

/-- R184: an encoded frame split into any chunks, each later one within `cfg_timeout` of the first that is not empty, is emitted
once. -/
def Obligations.ChunkBoundaryIndependence : Prop :=
  ∀ (t : Byte) (p : Bytes) (pre post : List (Bytes × Time)) (first : Bytes × Time) (s : State), p.length < 2 ^ 32 →
    s.engine.Idle →
    (pre ++ first :: post).flatMap Prod.fst = encodeFrame t p →
    (∀ c ∈ pre, c.1 = []) → first.1 ≠ [] →
    (∀ c ∈ post, (c.2 - first.2).toNat ≤ s.engine.cfgTimeout.toNat) →
    (encodeFrame t p).length ≤ s.engine.cfgMaxPayload.toNat + 10 →
    ∃ u rs, execAll ((pre ++ first :: post).map fun c => .feed c.1 c.2) s = some (u, rs) ∧
      eventsOf rs = [.frame ⟨t, p⟩] ∧ u.requests = s.requests ∧
      u.engine = { s.engine with
        counters := { s.engine.counters with
          messagesReceived := satInc s.engine.counters.messagesReceived 1
          bytesReceived := satInc s.engine.counters.bytesReceived (encodeFrame t p).length } }

/-- R186: noise before a frame, in the frame's chunk or in `m` chunks of its own. -/
def Obligations.GarbageResync : Prop :=
  ∀ (t : Byte) (p : Bytes) (s : State), p.length < 2 ^ 32 → s.engine.Idle →
    (∀ (g : Bytes) (now : Time), g ≠ [] → 0x7E ∉ g →
      exec (.feed (g ++ encodeFrame t p) now) s = .next { s with
        engine := { s.engine with
          counters := { s.engine.counters with
            framingErrors := satInc s.engine.counters.framingErrors 1
            messagesReceived := satInc s.engine.counters.messagesReceived 1
            bytesReceived := satInc s.engine.counters.bytesReceived (encodeFrame t p).length } }
        response := .assembled [.error .framing, .frame ⟨t, p⟩] [] }) ∧
    (∀ (gs : List (Bytes × Time)) (now : Time), (∀ g ∈ gs, g.1 ≠ [] ∧ 0x7E ∉ g.1) →
      ∃ u rs, execAll (gs.map (fun g => .feed g.1 g.2) ++ [.feed (encodeFrame t p) now]) s = some (u, rs) ∧
        eventsOf rs = List.replicate gs.length (.error .framing) ++ [.frame ⟨t, p⟩] ∧ u.engine.Idle ∧
        u.engine.counters.framingErrors.toNat =
          min (s.engine.counters.framingErrors.toNat + gs.length) (2 ^ 32 - 1))

/-- R187: two ways to split one byte sequence, with no timeout and no overflow in either, emit the same frames in the same order
and leave the same buffer. -/
def Obligations.RechunkingEmitsSameFrames : Prop :=
  ∀ (cs cs' : List (Bytes × Time)) (s s' t t' : State) (rs rs' : List Response), s.engine.Idle → s'.engine.Idle →
    cs.flatMap Prod.fst = cs'.flatMap Prod.fst →
    execAll (cs.map fun c => .feed c.1 c.2) s = some (t, rs) →
    execAll (cs'.map fun c => .feed c.1 c.2) s' = some (t', rs') →
    (∀ e ∈ eventsOf rs ++ eventsOf rs', e ≠ .error .timeout ∧ e ≠ .error .bufferOverflow) →
    framesOf (eventsOf rs) = framesOf (eventsOf rs') ∧ t.engine.buf = t'.engine.buf

/-- R174, Scenario D: any number of encoded frames in one chunk are emitted in order, and nothing else. -/
def Obligations.ConsecutiveFramesEmittedInOrder : Prop :=
  ∀ (fs : List Frame) (now : Time) (s : State), (∀ f ∈ fs, f.payload.length < 2 ^ 32) → s.engine.Idle →
    ∃ c, exec (.feed (fs.flatMap fun f => encodeFrame f.messageType f.payload) now) s = .next { s with
        engine := { s.engine with counters := c }
        response := .assembled (fs.map .frame) [] } ∧
      c.messagesReceived.toNat = min (s.engine.counters.messagesReceived.toNat + fs.length) (2 ^ 32 - 1) ∧
      c.bytesReceived.toNat = min (s.engine.counters.bytesReceived.toNat +
        (fs.map fun f => (encodeFrame f.messageType f.payload).length).sum) (2 ^ 32 - 1) ∧
      c.framingErrors = s.engine.counters.framingErrors ∧ c.crcErrors = s.engine.counters.crcErrors ∧
      c.escapeErrors = s.engine.counters.escapeErrors ∧ c.overflowErrors = s.engine.counters.overflowErrors ∧
      c.timeoutErrors = s.engine.counters.timeoutErrors

/-- R70, R184: a frame received as its opcode-table parts, the header, each byte of the stuffed payload, the trailer, is
emitted. -/
def Obligations.FramePartsAssembleFrame : Prop :=
  ∀ (t : Byte) (p : Bytes) (now : Time) (s : State), s.engine.Idle →
    p.length < 2 ^ 32 → (encodeFrame t p).length ≤ s.engine.cfgMaxPayload.toNat + 10 →
    ∃ u rs, execAll ([.frameHeader (BitVec.ofNat 32 p.length) (crc16 p) t now] ++
        (escapeBytes p).map (fun b => .framePayload b now) ++ [.frameTrailer now]) s = some (u, rs) ∧
      eventsOf rs = [.frame ⟨t, p⟩] ∧ u.engine.Idle

/-! The whole machine -/

/-- R20, column "written by", and R22: each piece of state is written by its owners alone, and the waiting requests by none. -/
def Obligations.StateWrittenByOwnersOnly : Prop :=
  ∀ (i : Instr) (s t : State), exec i s = .next t →
    t.requests = s.requests ∧
    (i ≠ .crcInit → (∀ b, i ≠ .crcUpdate b) → i ≠ .reset → t.engine.crc = s.engine.crc) ∧
    (deliveredBy i = none → i ≠ .sessionReset → i ≠ .reset →
      t.engine.buf = s.engine.buf ∧ t.engine.pendingSince = s.engine.pendingSince) ∧
    (deliveredBy i = none → i ≠ .statReset → i ≠ .reset → t.engine.counters = s.engine.counters) ∧
    ((∀ reg v, i ≠ .cfgWrite reg v) → i ≠ .reset →
      t.engine.cfgMaxPayload = s.engine.cfgMaxPayload ∧ t.engine.cfgTimeout = s.engine.cfgTimeout)

/-- R29: no step but a `RESET` or a `STAT.RESET` lowers a counter. -/
def Obligations.CountersNeverDecrease : Prop :=
  ∀ (i : Instr) (s t : State), exec i s = .next t → i ≠ .reset → i ≠ .statReset →
    s.engine.counters.messagesReceived.toNat ≤ t.engine.counters.messagesReceived.toNat ∧
    s.engine.counters.bytesReceived.toNat ≤ t.engine.counters.bytesReceived.toNat ∧
    s.engine.counters.framingErrors.toNat ≤ t.engine.counters.framingErrors.toNat ∧
    s.engine.counters.crcErrors.toNat ≤ t.engine.counters.crcErrors.toNat ∧
    s.engine.counters.escapeErrors.toNat ≤ t.engine.counters.escapeErrors.toNat ∧
    s.engine.counters.overflowErrors.toNat ≤ t.engine.counters.overflowErrors.toNat ∧
    s.engine.counters.timeoutErrors.toNat ≤ t.engine.counters.timeoutErrors.toNat

/-- R226: no operation reports one of the three out-of-scope error kinds. -/
def Obligations.OutOfScopeErrorsNeverReported : Prop :=
  ∀ (i : Instr) (s t : State), exec i s = .next t →
    .parse ∉ errorsOf t.response ∧ .unknownMessageType ∉ errorsOf t.response ∧ .transport ∉ errorsOf t.response

/-- R227, R232 with R123: every operation may be issued at any time and completes, but `ENCODE` of 2^32 bytes or more. -/
def Obligations.EveryOperationCompletes : Prop :=
  ∀ (i : Instr) (s : State), (∀ t p, i = .encode t p → p.length < 2 ^ 32) → ∃ t, exec i s = .next t
end

