-- ==== Sys2Proof/Laws/State.lean ====
section
/-! SUPPORT. One small lemma per field and update, so that no proof unfolds a record update. -/

namespace Sys2Proof.Machine

/-! Updates of the engine -/

@[simp] theorem Engine.append_crc (e : Engine) (c : Bytes) : (e.append c).crc = e.crc := rfl
@[simp] theorem Engine.append_buf (e : Engine) (c : Bytes) : (e.append c).buf = e.buf ++ c := rfl
@[simp] theorem Engine.append_pendingSince (e : Engine) (c : Bytes) : (e.append c).pendingSince = e.pendingSince := rfl
@[simp] theorem Engine.append_counters (e : Engine) (c : Bytes) : (e.append c).counters = e.counters := rfl
@[simp] theorem Engine.append_cfgMaxPayload (e : Engine) (c : Bytes) : (e.append c).cfgMaxPayload = e.cfgMaxPayload := rfl
@[simp] theorem Engine.append_cfgTimeout (e : Engine) (c : Bytes) : (e.append c).cfgTimeout = e.cfgTimeout := rfl

@[simp] theorem Engine.dropBytes_crc (e : Engine) (k : Nat) : (e.dropBytes k).crc = e.crc := rfl
@[simp] theorem Engine.dropBytes_buf (e : Engine) (k : Nat) : (e.dropBytes k).buf = e.buf.drop k := rfl
@[simp] theorem Engine.dropBytes_pendingSince (e : Engine) (k : Nat) : (e.dropBytes k).pendingSince = e.pendingSince := rfl
@[simp] theorem Engine.dropBytes_counters (e : Engine) (k : Nat) : (e.dropBytes k).counters = e.counters := rfl
@[simp] theorem Engine.dropBytes_cfgMaxPayload (e : Engine) (k : Nat) : (e.dropBytes k).cfgMaxPayload = e.cfgMaxPayload := rfl
@[simp] theorem Engine.dropBytes_cfgTimeout (e : Engine) (k : Nat) : (e.dropBytes k).cfgTimeout = e.cfgTimeout := rfl

@[simp] theorem Engine.clearBuf_crc (e : Engine) : e.clearBuf.crc = e.crc := rfl
@[simp] theorem Engine.clearBuf_buf (e : Engine) : e.clearBuf.buf = [] := rfl
@[simp] theorem Engine.clearBuf_pendingSince (e : Engine) : e.clearBuf.pendingSince = e.pendingSince := rfl
@[simp] theorem Engine.clearBuf_counters (e : Engine) : e.clearBuf.counters = e.counters := rfl
@[simp] theorem Engine.clearBuf_cfgMaxPayload (e : Engine) : e.clearBuf.cfgMaxPayload = e.cfgMaxPayload := rfl
@[simp] theorem Engine.clearBuf_cfgTimeout (e : Engine) : e.clearBuf.cfgTimeout = e.cfgTimeout := rfl

@[simp] theorem Engine.clearPending_crc (e : Engine) : e.clearPending.crc = e.crc := rfl
@[simp] theorem Engine.clearPending_buf (e : Engine) : e.clearPending.buf = e.buf := rfl
@[simp] theorem Engine.clearPending_pendingSince (e : Engine) : e.clearPending.pendingSince = none := rfl
@[simp] theorem Engine.clearPending_counters (e : Engine) : e.clearPending.counters = e.counters := rfl
@[simp] theorem Engine.clearPending_cfgMaxPayload (e : Engine) : e.clearPending.cfgMaxPayload = e.cfgMaxPayload := rfl
@[simp] theorem Engine.clearPending_cfgTimeout (e : Engine) : e.clearPending.cfgTimeout = e.cfgTimeout := rfl

@[simp] theorem Engine.wait_crc (e : Engine) (n : Time) : (e.wait n).crc = e.crc := rfl
@[simp] theorem Engine.wait_buf (e : Engine) (n : Time) : (e.wait n).buf = e.buf := rfl
@[simp] theorem Engine.wait_pendingSince (e : Engine) (n : Time) :
    (e.wait n).pendingSince = some (e.pendingSince.getD n) := rfl
@[simp] theorem Engine.wait_counters (e : Engine) (n : Time) : (e.wait n).counters = e.counters := rfl
@[simp] theorem Engine.wait_cfgMaxPayload (e : Engine) (n : Time) : (e.wait n).cfgMaxPayload = e.cfgMaxPayload := rfl
@[simp] theorem Engine.wait_cfgTimeout (e : Engine) (n : Time) : (e.wait n).cfgTimeout = e.cfgTimeout := rfl

/-! Updates of a scan -/

@[simp] theorem Scan.onEngine_engine (w : Scan) (f : Engine → Engine) : (w.onEngine f).engine = f w.engine := rfl
@[simp] theorem Scan.onEngine_out (w : Scan) (f : Engine → Engine) : (w.onEngine f).out = w.out := rfl

@[simp] theorem Scan.recordError_out (w : Scan) (k : ErrorKind) : (w.recordError k).out = w.out ++ [.error k] := rfl
@[simp] theorem Scan.recordError_crc (w : Scan) (k : ErrorKind) : (w.recordError k).engine.crc = w.engine.crc := rfl
@[simp] theorem Scan.recordError_buf (w : Scan) (k : ErrorKind) : (w.recordError k).engine.buf = w.engine.buf := rfl
@[simp] theorem Scan.recordError_pendingSince (w : Scan) (k : ErrorKind) :
    (w.recordError k).engine.pendingSince = w.engine.pendingSince := rfl
@[simp] theorem Scan.recordError_counters (w : Scan) (k : ErrorKind) :
    (w.recordError k).engine.counters = w.engine.counters.countError k := rfl
@[simp] theorem Scan.recordError_cfgMaxPayload (w : Scan) (k : ErrorKind) :
    (w.recordError k).engine.cfgMaxPayload = w.engine.cfgMaxPayload := rfl
@[simp] theorem Scan.recordError_cfgTimeout (w : Scan) (k : ErrorKind) :
    (w.recordError k).engine.cfgTimeout = w.engine.cfgTimeout := rfl

@[simp] theorem Scan.recordFrame_out (w : Scan) (f : Frame) (n : Nat) :
    (w.recordFrame f n).out = w.out ++ [.frame f] := rfl
@[simp] theorem Scan.recordFrame_crc (w : Scan) (f : Frame) (n : Nat) :
    (w.recordFrame f n).engine.crc = w.engine.crc := rfl
@[simp] theorem Scan.recordFrame_buf (w : Scan) (f : Frame) (n : Nat) :
    (w.recordFrame f n).engine.buf = w.engine.buf := rfl
@[simp] theorem Scan.recordFrame_pendingSince (w : Scan) (f : Frame) (n : Nat) :
    (w.recordFrame f n).engine.pendingSince = w.engine.pendingSince := rfl
@[simp] theorem Scan.recordFrame_counters (w : Scan) (f : Frame) (n : Nat) :
    (w.recordFrame f n).engine.counters = w.engine.counters.countFrame n := rfl
@[simp] theorem Scan.recordFrame_cfgMaxPayload (w : Scan) (f : Frame) (n : Nat) :
    (w.recordFrame f n).engine.cfgMaxPayload = w.engine.cfgMaxPayload := rfl
@[simp] theorem Scan.recordFrame_cfgTimeout (w : Scan) (f : Frame) (n : Nat) :
    (w.recordFrame f n).engine.cfgTimeout = w.engine.cfgTimeout := rfl

/-! Requests -/

@[simp] theorem putRequest_engine (s : State) (r : Request) : (putRequest s r).engine = s.engine := rfl
@[simp] theorem putRequest_requests (s : State) (r : Request) : (putRequest s r).requests = r :: s.requests := rfl
@[simp] theorem putRequest_response (s : State) (r : Request) : (putRequest s r).response = s.response := rfl

/-- Taking back the request just put gives the state before. -/
@[simp] theorem takeRequest_putRequest (s : State) (r : Request) : takeRequest (putRequest s r) = some (r, s) := rfl

/-- With no request there is nothing to take. -/
theorem takeRequest_of_nil {s : State} (h : s.requests = []) : takeRequest s = none := by
  simp [takeRequest, h]

/-- The oldest request is taken, and nothing else of the state changes. -/
theorem takeRequest_of_cons {s : State} {r : Request} {rest : List Request} (h : s.requests = r :: rest) :
    takeRequest s = some (r, { s with requests := rest }) := by
  simp [takeRequest, h]

/-- An operation that completes answers exactly this state. -/
@[simp] theorem complete_eq (s : State) (e : Engine) (r : Response) :
    complete s e r = .next { s with engine := e, response := r } := rfl

end Sys2Proof.Machine
end

