-- ==== Sys2Proof/Laws/Crc.lean ====
section
/-! SUPPORT. The CRC functions are linear over XOR and injective in the register: what the error-detection and bit-serial
claims of 40_crc.md (R107, R108, R110) rest on. -/

namespace Sys2Proof.Machine

/-- A shift as one XOR. -/
theorem crcShift_eq (c : U16) :
    crcShift c = (c >>> 1) ^^^ (if c.getLsbD 0 then Config.crcPoly else 0) := by
  unfold crcShift; split <;> simp

theorem crcShift_xor (a b : U16) : crcShift (a ^^^ b) = crcShift a ^^^ crcShift b := by
  simp only [crcShift_eq, BitVec.ushiftRight_xor_distrib, BitVec.getLsbD_xor]
  apply BitVec.eq_of_getLsbD_eq
  intro i _
  cases a.getLsbD 0 <;> cases b.getLsbD 0 <;> simp [Bool.xor_comm, Bool.xor_left_comm]

@[simp] theorem crcShift_zero : crcShift 0#16 = 0#16 := by decide

theorem crcShifts_xor (n : Nat) (a b : U16) : crcShifts n (a ^^^ b) = crcShifts n a ^^^ crcShifts n b := by
  induction n generalizing a b with
  | zero => rfl
  | succ n ih => simp [crcShifts, crcShift_xor, ih]

@[simp] theorem crcShifts_zero (n : Nat) : crcShifts n 0#16 = 0#16 := by
  induction n with
  | zero => rfl
  | succ n ih => simp [crcShifts, ih]

/-- Bit 15 of the polynomial is set and bit 15 of a shifted word is not, so only zero shifts to zero. -/
theorem eq_zero_of_crcShift {c : U16} (h : crcShift c = 0) : c = 0 := by
  rw [crcShift_eq] at h
  have h15 := congrArg (fun x : U16 => x.getLsbD 15) h
  by_cases h0 : c.getLsbD 0
  · simp [h0, Config.crcPoly] at h15
  · rw [if_neg h0] at h
    have h : c >>> 1 = 0#16 := by simpa using h
    apply BitVec.eq_of_getLsbD_eq
    intro i _
    rcases i with _ | i
    · simpa using h0
    · simpa [BitVec.getLsbD_ushiftRight, Nat.add_comm] using congrArg (fun x : U16 => x.getLsbD i) h

theorem crcShift_injective {a b : U16} (h : crcShift a = crcShift b) : a = b := by
  have : crcShift (a ^^^ b) = 0 := by rw [crcShift_xor, h, BitVec.xor_self]; rfl
  exact BitVec.xor_eq_zero_iff.mp (eq_zero_of_crcShift this)

theorem crcShifts_injective (n : Nat) {a b : U16} (h : crcShifts n a = crcShifts n b) : a = b := by
  induction n generalizing a b with
  | zero => exact h
  | succ n ih => exact crcShift_injective (ih h)

/-- One byte step is linear in the pair of register and byte. -/
theorem crcStep_xor (c d : U16) (a b : Byte) : crcStep (c ^^^ d) (a ^^^ b) = crcStep c a ^^^ crcStep d b := by
  unfold crcStep
  rw [← crcShifts_xor]
  congr 1
  simp only [BitVec.truncate_eq_setWidth, BitVec.setWidth_xor]
  ac_rfl

/-- One byte step is injective in the register. -/
theorem crcStep_injective {c d : U16} (b : Byte) (h : crcStep c b = crcStep d b) : c = d :=
  (BitVec.xor_left_inj _).mp (crcShifts_injective 8 h)

@[simp] theorem crcFrom_nil (c : U16) : crcFrom c [] = c := rfl
@[simp] theorem crcFrom_cons (c : U16) (b : Byte) (d : Bytes) : crcFrom c (b :: d) = crcFrom (crcStep c b) d := rfl
theorem crcFrom_append (c : U16) (a b : Bytes) : crcFrom c (a ++ b) = crcFrom (crcFrom c a) b := by
  simp [crcFrom, List.foldl_append]

theorem crcFrom_injective {c c' : U16} (d : Bytes) (h : crcFrom c d = crcFrom c' d) : c = c' := by
  induction d generalizing c c' with
  | nil => exact h
  | cons b d ih => exact crcStep_injective b (ih h)

/-- The CRC register after two sequences XORed bytewise. -/
theorem crcFrom_xor (c c' : U16) (a b : Bytes) (h : a.length = b.length) :
    crcFrom (c ^^^ c') (List.zipWith (· ^^^ ·) a b) = crcFrom c a ^^^ crcFrom c' b := by
  induction a generalizing b c c' with
  | nil => cases b with
    | nil => rfl
    | cons _ _ => simp at h
  | cons x a ih => cases b with
    | nil => simp at h
    | cons y b => simp only [List.zipWith_cons_cons, crcFrom_cons, crcStep_xor]; exact ih _ _ _ (by simpa using h)

/-- Two registers fed the same bytes differ by what their difference becomes. -/
theorem crcFrom_diff (c c' : U16) (a b : Bytes) (h : a.length = b.length) :
    crcFrom c a ^^^ crcFrom c' b = crcFrom (c ^^^ c') (List.zipWith (· ^^^ ·) a b) :=
  (crcFrom_xor c c' a b h).symm

/-- One bit-serial step is linear in the pair of register and bit. -/
theorem crcBit_xor (c d : U16) (a b : Bool) : crcBit (c ^^^ d) (a ^^ b) = crcBit c a ^^^ crcBit d b := by
  have h : ∀ (c : U16) (a : Bool), crcBit c a = (c >>> 1) ^^^ (if (c.getLsbD 0 ^^ a) then Config.crcPoly else 0) := by
    intro c a; unfold crcBit; cases c.getLsbD 0 <;> cases a <;> simp
  simp only [h, BitVec.ushiftRight_xor_distrib, BitVec.getLsbD_xor]
  apply BitVec.eq_of_getLsbD_eq
  intro i _
  cases c.getLsbD 0 <;> cases d.getLsbD 0 <;> cases a <;> cases b <;> simp [Bool.xor_comm, Bool.xor_left_comm]

/-- A byte entering a register whose high byte it leaves alone: eight shifts of an 8-bit difference never give an 8-bit
difference. -/
theorem crcShifts_byte_of_lt {d : Byte} (h : (crcShifts 8 (d.setWidth 16)).toNat < 256) : d = 0 := by
  revert d; decide +kernel

end Sys2Proof.Machine
end

