-- ==== Sys2Proof/Laws/Codec.lean ====
section
/-! SUPPORT. What the codec's functions do: byte order, stuffing and un-stuffing, the END scan, the parts of an encoded
frame, and DECODE by its steps. -/

namespace Sys2Proof

/-! Byte order -/

@[simp] theorem byteAt_cons_zero (a : Byte) (s : Bytes) : byteAt (a :: s) 0 = a := rfl
@[simp] theorem byteAt_cons_succ (a : Byte) (s : Bytes) (n : Nat) : byteAt (a :: s) (n + 1) = byteAt s n := rfl

theorem byteAt_append_left {s : Bytes} (t : Bytes) {i : Nat} (h : i < s.length) : byteAt (s ++ t) i = byteAt s i := by
  simp [byteAt, List.getD_eq_getElem?_getD, List.getElem?_append_left h]

theorem byteAt_append_right (s t : Bytes) (i : Nat) : byteAt (s ++ t) (s.length + i) = byteAt t i := by
  simp [byteAt, List.getD_eq_getElem?_getD, List.getElem?_append_right]

/-- A 16-bit word is its two bytes. -/
theorem u16_of_bytes (v : U16) : v.extractLsb' 8 8 ++ v.extractLsb' 0 8 = v := by
  apply BitVec.eq_of_getLsbD_eq
  intro i hi
  simp only [BitVec.getLsbD_append, BitVec.getLsbD_extractLsb']
  by_cases h : i < 8
  · simp [h]
  · have : i - 8 < 8 := by omega
    simp [h, this, show 8 + (i - 8) = i by omega]

/-- A 32-bit word is its four bytes. -/
theorem u32_of_bytes (v : U32) :
    v.extractLsb' 24 8 ++ v.extractLsb' 16 8 ++ v.extractLsb' 8 8 ++ v.extractLsb' 0 8 = v := by
  apply BitVec.eq_of_getLsbD_eq
  intro i hi
  simp only [BitVec.getLsbD_append, BitVec.getLsbD_extractLsb']
  by_cases h : i < 8
  · simp [h]
  · by_cases h2 : i - 8 < 8
    · simp [h, h2, show 8 + (i - 8) = i by omega]
    · by_cases h3 : i - 8 - 8 < 8
      · simp [h, h2, h3, show 16 + (i - 8 - 8) = i by omega]
      · simp [h, h2, h3, show i - 8 - 8 - 8 < 8 by omega, show 24 + (i - 8 - 8 - 8) = i by omega]

/-- Four bytes come back from the word they make. -/
theorem bytesLe32_append (b3 b2 b1 b0 : Byte) : bytesLe32 (b3 ++ b2 ++ b1 ++ b0) = [b0, b1, b2, b3] := by
  have h : ∀ j k, k < 8 → (BitVec.extractLsb' j 8 (b3 ++ b2 ++ b1 ++ b0 : U32)).getLsbD k =
      (b3 ++ b2 ++ b1 ++ b0 : BitVec (8 + 8 + 8 + 8)).getLsbD (j + k) := by
    intro j k hk; simp [hk]
  simp only [bytesLe32, List.cons.injEq, and_true]
  refine ⟨?_, ?_, ?_, ?_⟩ <;> (apply BitVec.eq_of_getLsbD_eq; intro k hk; rw [h _ k hk]) <;>
    simp only [BitVec.getLsbD_append]
  · simp [hk]
  · simp [hk, show ¬ 8 + k < 8 by omega]
  · simp [hk, show ¬ 16 + k < 8 by omega, show ¬ 16 + k - 8 < 8 by omega, show 16 + k - 8 - 8 = k by omega]
  · simp [show ¬ 24 + k < 8 by omega, show ¬ 24 + k - 8 < 8 by omega, show ¬ 24 + k - 8 - 8 < 8 by omega,
      show 24 + k - 8 - 8 - 8 = k by omega]

/-- Two bytes come back from the word they make. -/
theorem bytesLe16_append (b1 b0 : Byte) : bytesLe16 (b1 ++ b0) = [b0, b1] := by
  have h : ∀ j k, k < 8 → (BitVec.extractLsb' j 8 (b1 ++ b0 : U16)).getLsbD k =
      (b1 ++ b0 : BitVec (8 + 8)).getLsbD (j + k) := by
    intro j k hk; simp [hk]
  simp only [bytesLe16, List.cons.injEq, and_true]
  refine ⟨?_, ?_⟩ <;> (apply BitVec.eq_of_getLsbD_eq; intro k hk; rw [h _ k hk]) <;>
    simp only [BitVec.getLsbD_append]
  · simp [hk]
  · simp [show ¬ 8 + k < 8 by omega, show 8 + k - 8 = k by omega]

/-- The bytes of a 32-bit word as quotients of its value. -/
theorem bytesLe32_eq (v : U32) :
    bytesLe32 v = [BitVec.ofNat 8 v.toNat, BitVec.ofNat 8 (v.toNat / 2 ^ 8), BitVec.ofNat 8 (v.toNat / 2 ^ 16),
      BitVec.ofNat 8 (v.toNat / 2 ^ 24)] := by
  simp only [bytesLe32, List.cons.injEq, and_true]
  refine ⟨?_, ?_, ?_, ?_⟩ <;> apply BitVec.eq_of_toNat_eq <;> simp [BitVec.extractLsb', Nat.shiftRight_eq_div_pow]

/-- The bytes of a 16-bit word as quotients of its value. -/
theorem bytesLe16_eq (v : U16) : bytesLe16 v = [BitVec.ofNat 8 v.toNat, BitVec.ofNat 8 (v.toNat / 2 ^ 8)] := by
  simp only [bytesLe16, List.cons.injEq, and_true]
  refine ⟨?_, ?_⟩ <;> apply BitVec.eq_of_toNat_eq <;> simp [BitVec.extractLsb', Nat.shiftRight_eq_div_pow]

/-- `le32` as a number: the first byte is the least significant. -/
theorem le32_toNat (s : Bytes) (i : Nat) :
    (le32 s i).toNat = (byteAt s i).toNat + 256 * (byteAt s (i + 1)).toNat + 65536 * (byteAt s (i + 2)).toNat +
      16777216 * (byteAt s (i + 3)).toNat := by
  rw [show (le32 s i).toNat = (byteAt s (i + 3) ++ byteAt s (i + 2) ++ byteAt s (i + 1) ++ byteAt s i :
    BitVec (8 + 8 + 8 + 8)).toNat from rfl]
  simp only [BitVec.toNat_append]
  have h0 := (byteAt s i).isLt
  have h1 := (byteAt s (i + 1)).isLt
  have h2 := (byteAt s (i + 2)).isLt
  rw [← Nat.shiftLeft_add_eq_or_of_lt h2, ← Nat.shiftLeft_add_eq_or_of_lt h1, ← Nat.shiftLeft_add_eq_or_of_lt h0]
  simp only [Nat.shiftLeft_eq]
  omega

/-- `le16` as a number. -/
theorem le16_toNat (s : Bytes) (i : Nat) :
    (le16 s i).toNat = (byteAt s i).toNat + 256 * (byteAt s (i + 1)).toNat := by
  rw [show (le16 s i).toNat = (byteAt s (i + 1) ++ byteAt s i : BitVec (8 + 8)).toNat from rfl]
  simp only [BitVec.toNat_append]
  have h0 := (byteAt s i).isLt
  rw [← Nat.shiftLeft_add_eq_or_of_lt h0]
  simp only [Nat.shiftLeft_eq]
  omega

@[simp] theorem bytesLe16_length (v : U16) : (bytesLe16 v).length = 2 := rfl
@[simp] theorem bytesLe32_length (v : U32) : (bytesLe32 v).length = 4 := rfl

end Sys2Proof

namespace Sys2Proof.Machine

/-! Stuffing -/

theorem isReserved_iff (b : Byte) :
    isReserved b = true ↔ b = Config.startByte ∨ b = Config.endByte ∨ b = Config.escByte := by
  simp [isReserved, or_assoc]

@[simp] theorem escapeBytes_nil : escapeBytes [] = [] := rfl
theorem escapeBytes_cons (b : Byte) (p : Bytes) : escapeBytes (b :: p) = escapeByte b ++ escapeBytes p := by
  simp [escapeBytes]

/-- What the stuffer emits for a byte is the byte itself, not reserved, or an escape pair with a canonical second. -/
theorem escapeByte_cases (b : Byte) :
    (isReserved b = false ∧ escapeByte b = [b]) ∨
      (isReserved b = true ∧ escapeByte b = [Config.escByte, b ^^^ Config.escXor] ∧
        (b ^^^ Config.escXor) ∈ canonicalSeconds) := by
  cases h : isReserved b with
  | false => exact .inl ⟨rfl, by simp [escapeByte, h]⟩
  | true =>
    refine .inr ⟨rfl, by simp [escapeByte, h], ?_⟩
    rcases (isReserved_iff b).mp h with rfl | rfl | rfl <;> decide

theorem escapeBytes_length (p : Bytes) :
    (escapeBytes p).length = p.length + p.countP isReserved := by
  induction p with
  | nil => rfl
  | cons b p ih =>
    rw [escapeBytes_cons, List.length_append, ih]
    rcases escapeByte_cases b with ⟨h, e⟩ | ⟨h, e, _⟩ <;> simp [h, e] <;> omega

/-! The transient flag `esc` and what has been un-stuffed, after a prefix. Both the END scan and the un-stuffer walk with the
same flag. -/

/-- The flag after the bytes of a prefix. -/
def escAfter : Bool → Bytes → Bool
  | esc, [] => esc
  | true, _ :: rest => escAfter false rest
  | false, b :: rest => escAfter (b == Config.escByte) rest

/-- The bytes un-stuffed from a prefix. -/
def unstuffed : Bool → Bytes → Bytes
  | _, [] => []
  | true, b :: rest => (b ^^^ Config.escXor) :: unstuffed false rest
  | false, b :: rest =>
    if b = Config.escByte then unstuffed true rest else b :: unstuffed false rest

@[simp] theorem escAfter_nil (esc : Bool) : escAfter esc [] = esc := by cases esc <;> rfl
@[simp] theorem escAfter_true_cons (b : Byte) (s : Bytes) : escAfter true (b :: s) = escAfter false s := rfl
@[simp] theorem escAfter_false_cons (b : Byte) (s : Bytes) :
    escAfter false (b :: s) = escAfter (b == Config.escByte) s := rfl
@[simp] theorem unstuffed_nil (esc : Bool) : unstuffed esc [] = [] := by cases esc <;> rfl
@[simp] theorem unstuffed_true_cons (b : Byte) (s : Bytes) :
    unstuffed true (b :: s) = (b ^^^ Config.escXor) :: unstuffed false s := rfl
theorem unstuffed_false_cons (b : Byte) (s : Bytes) :
    unstuffed false (b :: s) = if b = Config.escByte then unstuffed true s else b :: unstuffed false s := rfl

theorem escAfter_append (esc : Bool) (a b : Bytes) : escAfter esc (a ++ b) = escAfter (escAfter esc a) b := by
  induction a generalizing esc with
  | nil => simp
  | cons x a ih => cases esc <;> simp [ih]

theorem unstuffed_append (esc : Bool) (a b : Bytes) :
    unstuffed esc (a ++ b) = unstuffed esc a ++ unstuffed (escAfter esc a) b := by
  induction a generalizing esc with
  | nil => simp
  | cons x a ih =>
    cases esc with
    | true => simp [ih]
    | false =>
      by_cases hx : x = Config.escByte
      · subst hx; simp [unstuffed_false_cons, ih]
      · simp [unstuffed_false_cons, hx, ih, beq_eq_false_iff_ne.mpr hx]

/-- UNESCAPE fails exactly when the flag is up at the end, and else gives what was un-stuffed. -/
theorem unescapeFrom_eq (esc : Bool) (s : Bytes) :
    unescapeFrom esc s = if escAfter esc s then none else some (unstuffed esc s) := by
  induction s generalizing esc with
  | nil => cases esc <;> rfl
  | cons b s ih =>
    cases esc with
    | true => simp only [unescapeFrom, ih, escAfter_true_cons, unstuffed_true_cons]; split <;> simp_all
    | false =>
      by_cases hb : b = Config.escByte
      · subst hb; simp [unescapeFrom, ih, unstuffed_false_cons]
      · simp only [unescapeFrom, hb, if_false, ih, escAfter_false_cons, unstuffed_false_cons,
          beq_eq_false_iff_ne.mpr hb]
        split <;> simp_all

theorem unescapeBytes_eq (s : Bytes) :
    unescapeBytes s = if escAfter false s then .err .escapeSequence else .ok (unstuffed false s) := by
  unfold unescapeBytes; rw [unescapeFrom_eq]; split <;> simp_all

/-- A stuffed payload leaves the flag down. -/
@[simp] theorem escAfter_escapeBytes (p : Bytes) : escAfter false (escapeBytes p) = false := by
  induction p with
  | nil => rfl
  | cons b p ih =>
    rw [escapeBytes_cons, escAfter_append]
    rcases escapeByte_cases b with ⟨h, e⟩ | ⟨_, e, _⟩
    · have hb : (b == Config.escByte) = false := by
        simp [isReserved] at h; simp [h.2]
      simp only [e, escAfter_false_cons, hb, escAfter_nil, ih]
    · simp [e, ih]

/-- Un-stuffing undoes stuffing (R125 (c)). -/
@[simp] theorem unstuffed_escapeBytes (p : Bytes) : unstuffed false (escapeBytes p) = p := by
  induction p with
  | nil => rfl
  | cons b p ih =>
    rw [escapeBytes_cons, unstuffed_append]
    rcases escapeByte_cases b with ⟨h, e⟩ | ⟨_, e, _⟩
    · have hb : b ≠ Config.escByte := by
        simp [isReserved] at h; exact h.2
      have hb' : (b == Config.escByte) = false := by simpa using hb
      simp [e, unstuffed_false_cons, hb, hb', ih]
    · simp [e, unstuffed_false_cons, ih]

theorem mem_escapeBytes {p : Bytes} {b : Byte} (h : b ∈ escapeBytes p) :
    b ≠ Config.startByte ∧ b ≠ Config.endByte := by
  obtain ⟨x, _, hx⟩ := List.mem_flatMap.mp h
  rcases escapeByte_cases x with ⟨hr, e⟩ | ⟨_, e, hc⟩
  · rw [e, List.mem_singleton] at hx
    subst hx
    have := (isReserved_iff b).not.mp (by simp [hr])
    exact ⟨fun h => this (.inl h), fun h => this (.inr (.inl h))⟩
  · rw [e, List.mem_cons, List.mem_singleton] at hx
    rcases hx with rfl | rfl
    · decide
    · revert hc; simp only [canonicalSeconds, List.mem_cons, List.not_mem_nil, or_false]
      rintro (h | h | h) <;> rw [h] <;> decide

/-! The END scan -/

/-- The END scan in terms of the flag: it goes on behind a prefix that holds no END of its own. -/
theorem endScanFrom_append_none {esc : Bool} {i : Nat} {a : Bytes} (h : endScanFrom esc i a = none) (b : Bytes) :
    endScanFrom esc i (a ++ b) = endScanFrom (escAfter esc a) (i + a.length) b := by
  induction a generalizing esc i with
  | nil => simp
  | cons x a ih =>
    cases esc with
    | true =>
      simp only [endScanFrom, if_true] at h
      simp only [List.cons_append, endScanFrom, if_true, ih h, escAfter_true_cons, List.length_cons]
      congr 1; omega
    | false =>
      simp only [endScanFrom, Bool.false_eq_true, if_false] at h
      by_cases hx : x = Config.escByte
      · subst hx
        simp only [if_true] at h
        simp only [List.cons_append, endScanFrom, Bool.false_eq_true, if_false, if_true, ih h, escAfter_false_cons,
          beq_self_eq_true, List.length_cons]
        congr 1; omega
      · by_cases hy : x = Config.endByte
        · rw [if_neg hx, if_pos hy] at h; cases h
        · simp only [hx, hy, if_false] at h
          simp only [List.cons_append, endScanFrom, Bool.false_eq_true, if_false, hx, hy, ih h, escAfter_false_cons,
            beq_eq_false_iff_ne.mpr hx, List.length_cons]
          congr 1; omega

/-- An END found in a prefix is found, whatever follows. -/
theorem endScanFrom_append_some {esc : Bool} {i j : Nat} {a : Bytes} (h : endScanFrom esc i a = some j) (b : Bytes) :
    endScanFrom esc i (a ++ b) = some j := by
  induction a generalizing esc i with
  | nil => simp [endScanFrom] at h
  | cons x a ih =>
    cases esc with
    | true =>
      simp only [endScanFrom, if_true] at h
      simpa only [List.cons_append, endScanFrom, if_true] using ih h
    | false =>
      simp only [endScanFrom, Bool.false_eq_true, if_false] at h
      simp only [List.cons_append, endScanFrom, Bool.false_eq_true, if_false]
      by_cases hx : x = Config.escByte
      · simp only [hx, if_true] at h ⊢; exact ih h
      · by_cases hy : x = Config.endByte
        · rw [if_neg hx, if_pos hy] at h ⊢; exact h
        · rw [if_neg hx, if_neg hy] at h ⊢; exact ih h

/-- Where the END scan stops: the bytes before hold no END of their own and leave the flag down, and then an END stands. -/
theorem endScanFrom_some {esc : Bool} {i j : Nat} {s : Bytes} (h : endScanFrom esc i s = some j) :
    ∃ a b, s = a ++ Config.endByte :: b ∧ j = i + a.length ∧ endScanFrom esc i a = none ∧ escAfter esc a = false := by
  induction s generalizing esc i with
  | nil => simp [endScanFrom] at h
  | cons x s ih =>
    cases esc with
    | true =>
      simp only [endScanFrom, if_true] at h
      obtain ⟨a, b, rfl, hj, hn, he⟩ := ih h
      exact ⟨x :: a, b, rfl, by simp [hj]; omega, by simpa [endScanFrom] using hn, by simpa using he⟩
    | false =>
      simp only [endScanFrom, Bool.false_eq_true, if_false] at h
      by_cases hx : x = Config.escByte
      · simp only [hx, if_true] at h
        obtain ⟨a, b, rfl, hj, hn, he⟩ := ih h
        exact ⟨x :: a, b, rfl, by simp [hj]; omega, by simpa [endScanFrom, hx] using hn, by simpa [hx] using he⟩
      · by_cases hy : x = Config.endByte
        · rw [if_neg hx, if_pos hy, Option.some.injEq] at h
          exact ⟨[], s, by simp [hy], by simp [h], rfl, rfl⟩
        · simp only [hx, hy, if_false] at h
          obtain ⟨a, b, rfl, hj, hn, he⟩ := ih h
          exact ⟨x :: a, b, rfl, by simp [hj]; omega, by simpa [endScanFrom, hx, hy] using hn,
            by simpa [beq_eq_false_iff_ne.mpr hx] using he⟩

/-- A sequence with no `0x7F` holds no END. -/
theorem endScanFrom_none_of_not_mem (esc : Bool) (i : Nat) {s : Bytes} (h : Config.endByte ∉ s) :
    endScanFrom esc i s = none := by
  cases hs : endScanFrom esc i s with
  | none => rfl
  | some j =>
    obtain ⟨a, b, rfl, _⟩ := endScanFrom_some hs
    simp at h

/-- The END scan starts behind the header. -/
theorem endScan_header {h : Bytes} (hl : h.length = 8) (s : Bytes) : endScan (h ++ s) = endScanFrom false 8 s := by
  have : (h ++ s).drop 8 = s := by rw [← hl]; simp
  simp [endScan, Config.headerLen, this]

theorem endScan_short {s : Bytes} (h : s.length ≤ 8) : endScan s = none := by
  simp [endScan, Config.headerLen, List.drop_eq_nil_of_le h, endScanFrom]

/-- Where the END scan of a buffer stops, as a splitting of the buffer: header, region, END, rest. -/
theorem endScan_some {s : Bytes} {i : Nat} (h : endScan s = some i) :
    ∃ hd a b, s = hd ++ a ++ Config.endByte :: b ∧ hd.length = 8 ∧ i = 8 + a.length ∧
      endScanFrom false 8 a = none ∧ escAfter false a = false := by
  obtain ⟨a, b, hs, hj, hn, he⟩ := endScanFrom_some h
  have hl : 8 < s.length := by
    rcases Nat.lt_or_ge 8 s.length with h' | h'
    · exact h'
    · rw [endScan_short h'] at h; cases h
  refine ⟨s.take 8, a, b, ?_, ?_, hj, hn, he⟩
  · have hs' : s.drop 8 = a ++ Config.endByte :: b := hs
    rw [List.append_assoc, ← hs', List.take_append_drop]
  · simp; omega

/-- A longer buffer has the same first END. -/
theorem endScan_append {s : Bytes} {i : Nat} (h : endScan s = some i) (b : Bytes) : endScan (s ++ b) = some i := by
  obtain ⟨hd, a, c, rfl, hl, hi, hn, he⟩ := endScan_some h
  rw [List.append_assoc, List.append_assoc, endScan_header hl] at *
  rw [← List.append_assoc]
  exact endScanFrom_append_some h b

/-! Frames -/

@[simp] theorem headerBytes_length (t : Byte) (p : Bytes) : (headerBytes t p).length = 8 := by
  simp [headerBytes]

theorem encodeFrame_length (t : Byte) (p : Bytes) :
    (encodeFrame t p).length = 9 + p.length + p.countP isReserved := by
  simp [encodeFrame, escapeBytes_length]; omega

/-- A candidate of header, region and one last byte has that region as its payload region. -/
theorem payloadRegion_of_parts {h : Bytes} (hl : h.length = 8) (s : Bytes) (x : Byte) :
    payloadRegion (h ++ s ++ [x]) = s := by
  have : (h ++ s ++ [x]).length - 1 = (h ++ s).length := by simp
  rw [payloadRegion, this, List.take_left]
  simp [Config.headerLen, ← hl]

theorem lastByte_append (s : Bytes) (x : Byte) : lastByte (s ++ [x]) = x := by
  have : (s ++ [x]).length - 1 = s.length + 0 := by simp
  rw [lastByte, this, byteAt_append_right]; rfl

/-- DECODE on a candidate given by its parts: only steps 4 to 7 are left. -/
theorem decodeFrame_of_parts {h : Bytes} (hl : h.length = 8) (h0 : byteAt h 0 = Config.startByte) (s : Bytes) :
    decodeFrame (h ++ s ++ [Config.endByte]) =
      if escAfter false s then .err .escapeSequence
      else if (unstuffed false s).length ≠ (le32 h 1).toNat then .err .framing
      else if crc16 (unstuffed false s) ≠ le16 h 5 then .err .crc
      else .ok ⟨byteAt h 7, unstuffed false s⟩ := by
  have hb : ∀ i, i < 8 → byteAt (h ++ s ++ [Config.endByte]) i = byteAt h i := fun i hi => by
    rw [List.append_assoc]; exact byteAt_append_left _ (hl ▸ hi)
  have h32 : le32 (h ++ s ++ [Config.endByte]) 1 = le32 h 1 := by
    simp only [le32, hb 1 (by omega), hb (1 + 1) (by omega), hb (1 + 2) (by omega), hb (1 + 3) (by omega)]
  have h16 : le16 (h ++ s ++ [Config.endByte]) 5 = le16 h 5 := by
    simp only [le16, hb 5 (by omega), hb (5 + 1) (by omega)]
  have hlen : ¬ (h ++ s ++ [Config.endByte]).length < Config.minFrameLen := by
    simp [Config.minFrameLen]; omega
  rw [decodeFrame, if_neg hlen, payloadRegion_of_parts hl, lastByte_append, hb 0 (by omega), h0, h32, h16,
    hb 7 (by omega), unescapeBytes_eq, if_neg (by simp)]
  cases escAfter false s <;> rfl

/-- DECODE, step 1. -/
theorem decodeFrame_short {f : Bytes} (h : f.length < 8) : decodeFrame f = .err .framing := if_pos h

/-- DECODE, step 2. -/
theorem decodeFrame_bad_markers {f : Bytes} (h : 8 ≤ f.length)
    (hm : byteAt f 0 ≠ Config.startByte ∨ lastByte f ≠ Config.endByte) : decodeFrame f = .err .framing := by
  have h' : ¬ f.length < Config.minFrameLen := Nat.not_lt.mpr h
  rw [decodeFrame, if_neg h', if_pos hm]

/-- DECODE, steps 3 to 7. -/
theorem decodeFrame_good_markers {f : Bytes} (h : 8 ≤ f.length) (h0 : byteAt f 0 = Config.startByte)
    (hn : lastByte f = Config.endByte) :
    decodeFrame f = match unescapeBytes (payloadRegion f) with
      | .err kind => .err kind
      | .ok p =>
        if p.length ≠ (le32 f 1).toNat then .err .framing
        else if crc16 p ≠ le16 f 5 then .err .crc
        else .ok ⟨byteAt f 7, p⟩ := by
  have h' : ¬ f.length < Config.minFrameLen := Nat.not_lt.mpr h
  have hm : ¬ (byteAt f 0 ≠ Config.startByte ∨ lastByte f ≠ Config.endByte) := by simp [h0, hn]
  cases hu : unescapeBytes (payloadRegion f) <;> simp only [decodeFrame, if_neg h', if_neg hm, hu]

theorem headerBytes_start (t : Byte) (p : Bytes) : byteAt (headerBytes t p) 0 = Config.startByte := rfl
theorem headerBytes_type (t : Byte) (p : Bytes) : byteAt (headerBytes t p) 7 = t := rfl
theorem headerBytes_length_field (t : Byte) (p : Bytes) : le32 (headerBytes t p) 1 = BitVec.ofNat 32 p.length :=
  u32_of_bytes _
theorem headerBytes_crc_field (t : Byte) (p : Bytes) : le16 (headerBytes t p) 5 = crc16 p := u16_of_bytes _

/-- The first END of an encoded frame is its last byte, whatever follows the frame (R124). -/
theorem endScan_encodeFrame (t : Byte) (p rest : Bytes) :
    endScan (encodeFrame t p ++ rest) = some (8 + (escapeBytes p).length) := by
  have hn : endScanFrom false 8 (escapeBytes p) = none :=
    endScanFrom_none_of_not_mem _ _ fun h => (mem_escapeBytes h).2 rfl
  rw [encodeFrame, List.append_assoc, List.append_assoc, endScan_header (headerBytes_length t p),
    endScanFrom_append_none hn, escAfter_escapeBytes]
  rfl

end Sys2Proof.Machine
end

