-- ==== Sys2Proof/Laws/Assembler.lean ====
section
/-! SUPPORT. What the assembler can do, said once: the search functions as splittings, the scan loop as the function `settle`
of the engine with one equation per rule (R163 to R173), and the induction those equations give. Later proofs cite these and
unfold neither the loop nor its passes. -/

namespace Sys2Proof.Machine

/-! Searching -/

/-- The suffix from the first `START` on; empty when there is none. -/
def toStart (s : Bytes) : Bytes := s.dropWhile (· != Config.startByte)

@[simp] theorem toStart_nil : toStart [] = [] := rfl
theorem toStart_cons_start (s : Bytes) : toStart (Config.startByte :: s) = Config.startByte :: s := by
  simp [toStart]
theorem toStart_cons_ne {b : Byte} (h : b ≠ Config.startByte) (s : Bytes) : toStart (b :: s) = toStart s := by
  simp [toStart, h]

theorem toStart_of_not_mem {s : Bytes} (h : Config.startByte ∉ s) : toStart s = [] := by
  induction s with
  | nil => rfl
  | cons b s ih =>
    rw [List.mem_cons, not_or] at h
    rw [toStart_cons_ne (Ne.symm h.1), ih h.2]

theorem toStart_append_of_not_mem {a : Bytes} (h : Config.startByte ∉ a) (b : Bytes) :
    toStart (a ++ b) = toStart b := by
  induction a with
  | nil => rfl
  | cons x a ih =>
    rw [List.mem_cons, not_or] at h
    rw [List.cons_append, toStart_cons_ne (Ne.symm h.1), ih h.2]

/-- A sequence is a run with no `START`, then nothing or a `START` and the rest. -/
theorem split_at_start (s : Bytes) :
    (Config.startByte ∉ s ∧ toStart s = []) ∨
      ∃ a b, s = a ++ Config.startByte :: b ∧ Config.startByte ∉ a ∧ toStart s = Config.startByte :: b := by
  induction s with
  | nil => exact .inl (by simp)
  | cons x s ih =>
    by_cases hx : x = Config.startByte
    · subst hx; exact .inr ⟨[], s, rfl, by simp, toStart_cons_start s⟩
    · rcases ih with ⟨h, e⟩ | ⟨a, b, rfl, h, e⟩
      · exact .inl ⟨by simp [h, Ne.symm hx], by rw [toStart_cons_ne hx, e]⟩
      · exact .inr ⟨x :: a, b, rfl, by simp [h, Ne.symm hx], by rw [toStart_cons_ne hx, e]⟩

theorem toStart_length_le (s : Bytes) : (toStart s).length ≤ s.length :=
  List.length_dropWhile_le _ _

/-- What stands before the first `START`, and what from it on, make up the sequence. -/
theorem takeWhile_append_toStart (s : Bytes) : s.takeWhile (· != Config.startByte) ++ toStart s = s :=
  List.takeWhile_append_dropWhile

/-- A suffix from the first `START` on is empty or begins with `START`. -/
theorem toStart_eq_nil_or_cons (s : Bytes) : toStart s = [] ∨ ∃ b, toStart s = Config.startByte :: b := by
  rcases split_at_start s with ⟨_, h⟩ | ⟨_, b, _, _, h⟩
  · exact .inl h
  · exact .inr ⟨b, h⟩

theorem find_none {s : Bytes} {v : Byte} : find s v 0 = none ↔ v ∉ s := by
  simp only [find, List.drop_zero, Option.map_eq_none_iff, List.findIdx?_eq_none_iff, beq_eq_false_iff_ne]
  exact ⟨fun h hm => h v hm rfl, fun h x hx he => h (he ▸ hx)⟩

theorem find_split {a b : Bytes} {v : Byte} (h : v ∉ a) : find (a ++ v :: b) v 0 = some a.length := by
  have ha : a.findIdx? (· == v) = none := by
    rw [List.findIdx?_eq_none_iff]
    exact fun x hx => beq_eq_false_iff_ne.mpr fun he => h (he ▸ hx)
  simp [find, List.findIdx?_append, ha, List.findIdx?_cons]

theorem find_one (x : Byte) (s : Bytes) (v : Byte) : find (x :: s) v 1 = (find s v 0).map (· + 1) := by
  simp [find]

/-- `drop_to_next_start()` on a buffer that is not empty (R167). -/
theorem Engine.dropToNextStart_eq (e : Engine) :
    e.dropToNextStart = { e with buf := toStart e.buf.tail, pendingSince := none } := by
  rcases hb : e.buf with _ | ⟨x, s⟩
  · simp [Engine.dropToNextStart, find, hb, Engine.clearBuf, Engine.clearPending]
  · rcases split_at_start s with ⟨h, ht⟩ | ⟨a, b, rfl, h, ht⟩
    · simp [Engine.dropToNextStart, hb, find_one, find_none.mpr h, ht, Engine.clearBuf, Engine.clearPending]
    · simp [Engine.dropToNextStart, hb, find_one, find_split h, ht, Engine.dropBytes, Engine.clearPending]

/-! Events do not depend on the events before them -/

/-- A scan with events put before its own. -/
def Scan.after (o : List Event) (w : Scan) : Scan := { w with out := o ++ w.out }

@[simp] theorem Scan.after_engine (o : List Event) (w : Scan) : (w.after o).engine = w.engine := rfl
@[simp] theorem Scan.after_out (o : List Event) (w : Scan) : (w.after o).out = o ++ w.out := rfl
@[simp] theorem Scan.after_nil (w : Scan) : w.after [] = w := rfl
theorem Scan.after_after (o o' : List Event) (w : Scan) : (w.after o').after o = w.after (o ++ o') := by
  simp [Scan.after]
theorem Scan.after_onEngine (o : List Event) (w : Scan) (f : Engine → Engine) :
    (w.after o).onEngine f = (w.onEngine f).after o := rfl
theorem Scan.after_recordError (o : List Event) (w : Scan) (k : ErrorKind) :
    (w.after o).recordError k = (w.recordError k).after o := by
  simp [Scan.after, Scan.recordError]
theorem Scan.after_recordFrame (o : List Event) (w : Scan) (f : Frame) (n : Nat) :
    (w.after o).recordFrame f n = (w.recordFrame f n).after o := by
  simp [Scan.after, Scan.recordFrame]

/-- A pass with events put before its own. -/
def Pass.after (o : List Event) : Pass → Pass
  | .stop w => .stop (w.after o)
  | .again w => .again (w.after o)

theorem resolve_after (o : List Event) (i : Nat) (w : Scan) : resolve i (w.after o) = (resolve i w).after o := by
  unfold resolve
  simp only [Scan.after_engine]
  split <;> simp [Scan.after_recordError, Scan.after_recordFrame, Scan.after_onEngine]

theorem candidate_after (now : Time) (o : List Event) (w : Scan) :
    candidate now (w.after o) = (candidate now w).after o := by
  unfold candidate
  simp only [Scan.after_engine, resolve_after, overflow, Scan.after_recordError, Scan.after_onEngine]
  split
  · rfl
  · split
    · rfl
    · split <;> rfl

theorem pass_after (now : Time) (o : List Event) (w : Scan) : pass now (w.after o) = (pass now w).after o := by
  unfold pass
  simp only [Scan.after_engine, Scan.after_recordError, Scan.after_onEngine, candidate_after]
  split
  · rfl
  · split <;> rfl

theorem scanLoop_after (now : Time) (n : Nat) (o : List Event) (w : Scan) :
    scanLoop now n (w.after o) = (scanLoop now n w).after o := by
  induction n generalizing w with
  | zero => rfl
  | succ n ih =>
    simp only [scanLoop, pass_after]
    cases pass now w with
    | stop w' => rfl
    | again w' => exact ih w'

/-! What a pass is, by the form of the buffer -/

theorem pass_nil {now : Time} {w : Scan} (h : w.engine.buf = []) : pass now w = .stop w := by
  simp [pass, h]

theorem pass_noise {now : Time} {w : Scan} (h : w.engine.buf ≠ []) (hs : Config.startByte ∉ w.engine.buf) :
    pass now w = .stop ((w.recordError .framing).onEngine Engine.clearBuf) := by
  simp [pass, h, find_none.mpr hs]

theorem pass_start {now : Time} {w : Scan} {b : Bytes} (h : w.engine.buf = Config.startByte :: b) :
    pass now w = candidate now w := by
  have : find w.engine.buf Config.startByte 0 = some 0 := by
    rw [h]; exact find_split (a := []) (by simp)
  have hne : w.engine.buf ≠ [] := by simp [h]
  simp only [pass, if_neg hne, this]

theorem pass_skip {now : Time} {w : Scan} {a b : Bytes} (h : w.engine.buf = a ++ Config.startByte :: b) (ha : a ≠ [])
    (hs : Config.startByte ∉ a) :
    pass now w = candidate now ((w.recordError .framing).onEngine fun e => e.dropBytes a.length) := by
  have hf : find w.engine.buf Config.startByte 0 = some a.length := by rw [h]; exact find_split hs
  obtain ⟨k, hk⟩ : ∃ k, a.length = k + 1 := ⟨a.length - 1, by have := List.length_pos_of_ne_nil ha; omega⟩
  have hne : w.engine.buf ≠ [] := by simp [h]
  simp only [pass, if_neg hne, hf, hk]

/-! The loop as a function of the engine -/

/-- What the scan loop makes of an engine: the loop of `FEED` started with an empty `out`. -/
def settle (now : Time) (e : Engine) : Scan := scanLoop now (e.buf.length + 1) ⟨e, []⟩

theorem resolve_shorter {w : Scan} {i : Nat} {b : Bytes} (h : w.engine.buf = Config.startByte :: b) :
    (resolve i w).engine.buf.length < w.engine.buf.length := by
  unfold resolve
  split
  · simp [h]
  · have := toStart_length_le b
    simp [Engine.dropToNextStart_eq, h]; omega

theorem candidate_again {now : Time} {w w' : Scan} (h : candidate now w = .again w') :
    ∃ i, endScan w.engine.buf = some i ∧ w' = resolve i w := by
  unfold candidate at h
  split at h
  · cases h
  · split at h
    · rename_i i hi
      exact ⟨i, hi, by injection h with h; exact h.symm⟩
    · split at h <;> cases h

/-- Every pass that goes back to the loop head has removed at least one byte (R183). -/
theorem pass_again_shorter {now : Time} {w w' : Scan} (h : pass now w = .again w') :
    w'.engine.buf.length < w.engine.buf.length := by
  rcases split_at_start w.engine.buf with ⟨hs, _⟩ | ⟨a, b, hb, hs, _⟩
  · by_cases hn : w.engine.buf = []
    · rw [pass_nil hn] at h; cases h
    · rw [pass_noise hn hs] at h; cases h
  · by_cases ha : a = []
    · rw [ha, List.nil_append] at hb
      rw [pass_start hb] at h
      obtain ⟨i, _, rfl⟩ := candidate_again h
      exact resolve_shorter hb
    · rw [pass_skip hb ha hs] at h
      obtain ⟨i, _, rfl⟩ := candidate_again h
      refine Nat.lt_of_lt_of_le (resolve_shorter (b := b) (by simp [hb])) (by simp)

/-- More passes than bytes make no difference (R183). -/
theorem scanLoop_fuel (now : Time) {n m : Nat} {w : Scan} (hn : w.engine.buf.length < n) (hm : w.engine.buf.length < m) :
    scanLoop now n w = scanLoop now m w := by
  induction n generalizing w m with
  | zero => omega
  | succ n ih =>
    obtain ⟨m, rfl⟩ : ∃ k, m = k + 1 := ⟨m - 1, by omega⟩
    simp only [scanLoop]
    cases hp : pass now w with
    | stop w' => rfl
    | again w' =>
      have := pass_again_shorter hp
      exact ih (by omega) (by omega)

theorem scanLoop_settle (now : Time) {n : Nat} {w : Scan} (hn : w.engine.buf.length < n) :
    scanLoop now n w = (settle now w.engine).after w.out := by
  have hw : (Scan.mk w.engine []).after w.out = w := by simp [Scan.after]
  rw [settle, ← scanLoop_after, hw, scanLoop_fuel now hn (Nat.lt_succ_self _)]

theorem settle_of_pass (now : Time) (e : Engine) :
    settle now e = match pass now ⟨e, []⟩ with
      | .stop w => w
      | .again w => (settle now w.engine).after w.out := by
  unfold settle
  rw [scanLoop]
  cases hp : pass now ⟨e, []⟩ with
  | stop w => rfl
  | again w => exact scanLoop_settle now (pass_again_shorter hp)

/-! One equation per rule -/

/-- R163. -/
theorem settle_nil {now : Time} {e : Engine} (h : e.buf = []) : settle now e = ⟨e, []⟩ := by
  rw [settle_of_pass, pass_nil h]

/-- R165. -/
theorem settle_noise {now : Time} {e : Engine} (h : e.buf ≠ []) (hs : Config.startByte ∉ e.buf) :
    settle now e = ⟨{ e with buf := [], counters := e.counters.countError .framing }, [.error .framing]⟩ := by
  rw [settle_of_pass, pass_noise h hs]; rfl

/-- R164. -/
theorem settle_skip {now : Time} {e : Engine} {a b : Bytes} (h : e.buf = a ++ Config.startByte :: b) (ha : a ≠ [])
    (hs : Config.startByte ∉ a) :
    settle now e = (settle now { e with
      buf := Config.startByte :: b, counters := e.counters.countError .framing }).after [.error .framing] := by
  have hw : (((Scan.mk e []).recordError .framing).onEngine fun e => e.dropBytes a.length) =
      (Scan.mk { e with buf := Config.startByte :: b, counters := e.counters.countError .framing } []).after
        [.error .framing] := by
    simp [Scan.recordError, Scan.onEngine, Engine.dropBytes, Scan.after, h]
  rw [settle_of_pass, pass_skip h ha hs, hw, candidate_after, settle_of_pass now { e with
    buf := Config.startByte :: b, counters := e.counters.countError .framing }, pass_start (b := b) rfl]
  cases candidate now ⟨{ e with buf := Config.startByte :: b, counters := e.counters.countError .framing }, []⟩ with
  | stop w => rfl
  | again w => simp [Pass.after, Scan.after_after]

/-- No END stands in the buffer, and it is within its bound or shorter than a header: the pending frame waits. -/
def Engine.waits (e : Engine) : Prop :=
  e.buf.length < Config.headerLen ∨ (endScan e.buf = none ∧ e.overBound = false)

/-- R166, R173, R175. -/
theorem settle_wait {now : Time} {e : Engine} {b : Bytes} (h : e.buf = Config.startByte :: b) (hw : e.waits) :
    settle now e = ⟨e.wait now, []⟩ := by
  rw [settle_of_pass, pass_start (b := b) h, candidate]
  by_cases hl : e.buf.length < Config.headerLen
  · simp only [if_pos hl]; rfl
  · rcases hw with hw | ⟨hn, ho⟩
    · exact absurd hw hl
    · simp only [if_neg hl, hn, ho]; rfl

/-- R172. -/
theorem settle_overflow {now : Time} {e : Engine} {b : Bytes} (h : e.buf = Config.startByte :: b)
    (hl : ¬ e.buf.length < Config.headerLen) (hn : endScan e.buf = none) (ho : e.overBound = true) :
    settle now e = ⟨{ e with
      buf := [], pendingSince := none, counters := e.counters.countError .bufferOverflow },
      [.error .bufferOverflow]⟩ := by
  rw [settle_of_pass, pass_start (b := b) h, candidate]
  simp only [if_neg hl, hn, ho]; rfl

theorem not_short_of_endScan {s : Bytes} {i : Nat} (h : endScan s = some i) : ¬ s.length < Config.headerLen := by
  intro hl
  rw [endScan_short (by simp [Config.headerLen] at hl; omega)] at h
  cases h

/-- R170. -/
theorem settle_accept {now : Time} {e : Engine} {b : Bytes} {i : Nat} {f : Frame} (h : e.buf = Config.startByte :: b)
    (hi : endScan e.buf = some i) (hd : decodeFrame (e.buf.take (i + 1)) = .ok f) :
    settle now e = (settle now { e with
      buf := e.buf.drop (i + 1), pendingSince := none, counters := e.counters.countFrame (i + 1) }).after
        [.frame f] := by
  rw [settle_of_pass, pass_start (b := b) h, candidate]
  simp only [if_neg (not_short_of_endScan hi), hi, resolve, hd]
  rfl

/-- R171. -/
theorem settle_reject {now : Time} {e : Engine} {b : Bytes} {i : Nat} {k : ErrorKind}
    (h : e.buf = Config.startByte :: b) (hi : endScan e.buf = some i)
    (hd : decodeFrame (e.buf.take (i + 1)) = .err k) :
    settle now e = (settle now { e with
      buf := toStart b, pendingSince := none, counters := e.counters.countError k }).after [.error k] := by
  have ht : toStart b = toStart e.buf.tail := by rw [h]; rfl
  rw [settle_of_pass, pass_start (b := b) h, candidate, ht]
  simp only [if_neg (not_short_of_endScan hi), hi, resolve, hd, Scan.onEngine, Engine.dropToNextStart_eq]
  rfl

/-- Induction along the scan loop: one case per rule. -/
theorem settle_induction {now : Time} {P : Engine → Engine → List Event → Prop}
    (idle : ∀ e, e.buf = [] → P e e [])
    (noise : ∀ e, e.buf ≠ [] → Config.startByte ∉ e.buf →
      P e { e with buf := [], counters := e.counters.countError .framing } [.error .framing])
    (skip : ∀ e a b e' out, e.buf = a ++ Config.startByte :: b → a ≠ [] → Config.startByte ∉ a →
      P { e with buf := Config.startByte :: b, counters := e.counters.countError .framing } e' out →
      P e e' (.error .framing :: out))
    (wait : ∀ e b, e.buf = Config.startByte :: b → e.waits → P e (e.wait now) [])
    (tooLong : ∀ e b, e.buf = Config.startByte :: b → ¬ e.buf.length < Config.headerLen → endScan e.buf = none →
      e.overBound = true →
      P e { e with buf := [], pendingSince := none, counters := e.counters.countError .bufferOverflow }
        [.error .bufferOverflow])
    (accept : ∀ e b i f e' out, e.buf = Config.startByte :: b → endScan e.buf = some i →
      decodeFrame (e.buf.take (i + 1)) = .ok f →
      P { e with buf := e.buf.drop (i + 1), pendingSince := none, counters := e.counters.countFrame (i + 1) } e' out →
      P e e' (.frame f :: out))
    (reject : ∀ e b i k e' out, e.buf = Config.startByte :: b → endScan e.buf = some i →
      decodeFrame (e.buf.take (i + 1)) = .err k →
      P { e with buf := toStart b, pendingSince := none, counters := e.counters.countError k } e' out →
      P e e' (.error k :: out))
    (e : Engine) : P e (settle now e).engine (settle now e).out := by
  induction hn : e.buf.length using Nat.strongRecOn generalizing e with
  | ind n ih =>
    subst hn
    have start : ∀ e' : Engine, e'.buf.length ≤ e.buf.length → ∀ b, e'.buf = Config.startByte :: b →
        P e' (settle now e').engine (settle now e').out := by
      intro e' hle b hb
      cases hi : endScan e'.buf with
      | none =>
        by_cases hl : e'.buf.length < Config.headerLen
        · rw [settle_wait hb (.inl hl)]; exact wait e' b hb (.inl hl)
        · cases ho : e'.overBound with
          | false => rw [settle_wait hb (.inr ⟨hi, ho⟩)]; exact wait e' b hb (.inr ⟨hi, ho⟩)
          | true => rw [settle_overflow hb hl hi ho]; exact tooLong e' b hb hl hi ho
      | some i =>
        cases hd : decodeFrame (e'.buf.take (i + 1)) with
        | ok f =>
          rw [settle_accept hb hi hd]
          refine accept e' b i f _ _ hb hi hd (ih _ ?_ _ rfl)
          simp [hb] at hle ⊢; omega
        | err k =>
          rw [settle_reject hb hi hd]
          refine reject e' b i k _ _ hb hi hd (ih _ ?_ _ rfl)
          have := toStart_length_le b
          simp [hb] at hle ⊢; omega
    rcases split_at_start e.buf with ⟨hs, _⟩ | ⟨a, b, hb, hs, _⟩
    · by_cases he : e.buf = []
      · rw [settle_nil he]; exact idle e he
      · rw [settle_noise he hs]; exact noise e he hs
    · by_cases ha : a = []
      · rw [ha, List.nil_append] at hb; exact start e (Nat.le_refl _) b hb
      · rw [settle_skip hb ha hs]
        exact skip e a b _ _ hb ha hs (start _ (by simp [hb]) b rfl)

/-- The slice the END scan cuts fails only by its length or its CRC (R169). -/
theorem decodeFrame_slice_err {s b : Bytes} {i : Nat} {k : ErrorKind} (hs : s = Config.startByte :: b)
    (hi : endScan s = some i) (hd : decodeFrame (s.take (i + 1)) = .err k) : k = .framing ∨ k = .crc := by
  obtain ⟨h, a, c, he, hl, rfl, -, hesc⟩ := endScan_some hi
  have ht : s.take (8 + a.length + 1) = h ++ a ++ [Config.endByte] := by
    have hp : (h ++ a).length = 8 + a.length := by simp [hl]
    rw [he, List.take_append, List.take_of_length_le (by omega), hp, Nat.add_sub_cancel_left]; rfl
  have h0 : byteAt h 0 = Config.startByte := by
    rw [← byteAt_append_left (a ++ Config.endByte :: c) (by omega : 0 < h.length), ← List.append_assoc, ← he, hs]; rfl
  rw [ht, decodeFrame_of_parts hl h0, hesc] at hd
  simp only [Bool.false_eq_true, if_false] at hd
  split at hd
  · cases hd; exact .inl rfl
  · split at hd
    · cases hd; exact .inr rfl
    · cases hd

/-- The loop itself never reports a timeout nor counts one: only the step before it does (R161). -/
theorem settle_no_timeout (now : Time) (e : Engine) :
    .error .timeout ∉ (settle now e).out ∧
      (settle now e).engine.counters.timeoutErrors = e.counters.timeoutErrors := by
  refine settle_induction (now := now)
    (P := fun e e' out => .error .timeout ∉ out ∧ e'.counters.timeoutErrors = e.counters.timeoutErrors)
    ?_ ?_ ?_ ?_ ?_ ?_ ?_ e
  · intros; exact ⟨by simp, rfl⟩
  · intros; exact ⟨by simp, rfl⟩
  · intro e a b e' out _ _ _ h; exact ⟨by simpa using h.1, h.2⟩
  · intros; exact ⟨by simp, rfl⟩
  · intros; exact ⟨by simp, rfl⟩
  · intro e b i f e' out _ _ _ h; exact ⟨by simpa using h.1, h.2⟩
  · intro e b i k e' out hb hi hd h
    rcases decodeFrame_slice_err hb hi hd with rfl | rfl <;> exact ⟨by simpa using h.1, h.2⟩

/-! FEED -/

/-- The engine after an expiry (R161): one timeout counted, the bytes to the next `START` dropped. -/
def Engine.timedOut (e : Engine) : Engine :=
  { e with buf := toStart e.buf.tail, pendingSince := none, counters := e.counters.countError .timeout }

theorem assemble_expired {now : Time} {e : Engine} (h : expired now e = true) (chunk : Bytes) :
    assemble chunk now e = (settle now (e.timedOut.append chunk)).after [.error .timeout] := by
  have hw : (expire now ⟨e, []⟩).onEngine (fun e => e.append chunk) =
      (Scan.mk (e.timedOut.append chunk) []).after [.error .timeout] := by
    simp only [expire, h, if_true, Scan.onEngine, Engine.dropToNextStart_eq]
    rfl
  simp only [assemble, hw]
  rw [scanLoop_settle now (Nat.lt_succ_self _)]
  rfl

theorem assemble_live {now : Time} {e : Engine} (h : expired now e = false) (chunk : Bytes) :
    assemble chunk now e = settle now (e.append chunk) := by
  simp only [assemble, expire, h]
  rfl

/-- With no pending frame nothing expires. -/
@[simp] theorem expired_of_none {now : Time} {e : Engine} (h : e.pendingSince = none) : expired now e = false := by
  simp [expired, h]

/-- A live engine is not expired. -/
theorem expired_of_live {now : Time} {e : Engine} (h : e.Live now) : expired now e = false := by
  unfold expired
  cases hp : e.pendingSince with
  | none => rfl
  | some t => exact decide_eq_false (Nat.not_lt.mpr (h t hp))

/-- Every delivery completes: the engine takes the chunk, and returns the events and a copy of `buf`. -/
theorem deliver_eq (chunk : Bytes) (now : Time) (s : State) :
    deliver chunk now s = .next { s with
      engine := (assemble chunk now s.engine).engine
      response := .assembled (assemble chunk now s.engine).out (assemble chunk now s.engine).engine.buf } := rfl

end Sys2Proof.Machine
end

