-- ==== Sys2Proof/Laws/Exec.lean ====
section
/-! SUPPORT. Everything `exec` and `step` can do, said once. -/

namespace Sys2Proof.Machine

/-- Every instruction that delivers bytes is a delivery of those bytes. -/
theorem exec_of_deliveredBy {i : Instr} {chunk : Bytes} {now : Time} (h : deliveredBy i = some (chunk, now)) (s : State) :
    exec i s = deliver chunk now s := by
  cases i <;> simp only [deliveredBy, Option.some.injEq, Prod.mk.injEq, reduceCtorEq] at h <;>
    obtain ⟨rfl, rfl⟩ := h <;> rfl

/-- FEED on a live engine is the scan loop on the engine with the chunk behind its bytes. -/
theorem exec_feed_live {chunk : Bytes} {now : Time} {s : State} (h : s.engine.Live now) :
    exec (.feed chunk now) s = .next { s with
      engine := (settle now (s.engine.append chunk)).engine
      response := .assembled (settle now (s.engine.append chunk)).out (settle now (s.engine.append chunk)).engine.buf } := by
  rw [exec_of_deliveredBy (i := .feed chunk now) rfl, deliver_eq, assemble_live (expired_of_live h)]

/-- What an instruction that answers a next state has done: the requests wait as before, and the engine was changed by a
delivery, a reset, a configuration write, the CRC register's own operations, or not at all. -/
theorem exec_next_cases {i : Instr} {s t : State} (h : exec i s = .next t) :
    t.requests = s.requests ∧
      ((∃ chunk now, deliveredBy i = some (chunk, now) ∧ t.engine = (assemble chunk now s.engine).engine) ∨
        (i = .reset ∧ t.engine = Engine.reset) ∨
        (i = .sessionReset ∧ t.engine = { s.engine with buf := [], pendingSince := none }) ∨
        (i = .statReset ∧ t.engine = { s.engine with counters := Counters.zero }) ∨
        (∃ reg v, i = .cfgWrite reg v ∧ (writeRegister s.engine reg v).getD s.engine = t.engine) ∨
        (i = .crcInit ∧ t.engine = { s.engine with crc := Config.crcInit }) ∨
        (∃ b, i = .crcUpdate b ∧ t.engine = { s.engine with crc := crcStep s.engine.crc b }) ∨
        (deliveredBy i = none ∧ t.engine = s.engine)) := by
  rcases hd : deliveredBy i with _ | ⟨chunk, now⟩
  · cases i <;> simp only [deliveredBy, reduceCtorEq] at hd
    case reset => cases h; simp
    case sessionReset => cases h; simp [Engine.clearBuf, Engine.clearPending]
    case statReset => cases h; simp
    case cfgWrite reg v =>
      simp only [exec, execCfgWrite] at h
      cases hw : writeRegister s.engine reg v <;> simp only [hw] at h <;> cases h <;> simp [hw]
    case regRead reg =>
      simp only [exec, execRegRead] at h
      cases hr : registerOf reg <;> simp only [hr] at h <;> cases h <;> simp
    case crcInit => cases h; simp
    case crcUpdate b => cases h; simp
    case encode m p =>
      simp only [exec, execEncode] at h
      split at h
      · cases h; simp
      · cases h
    all_goals (cases h; simp)
  · rw [exec_of_deliveredBy hd, deliver_eq] at h
    cases h
    exact ⟨rfl, .inl ⟨chunk, now, rfl, rfl⟩⟩

/-- What a configuration write can leave (R203). -/
theorem writeRegister_some {e e' : Engine} {reg : Nat} {v : U32} (h : writeRegister e reg v = some e') :
    (reg = 1 ∧ v.toNat ≤ Config.maxPayloadLimit ∧ e' = { e with cfgMaxPayload := v }) ∨
      (reg = 2 ∧ e' = { e with cfgTimeout := v }) := by
  unfold writeRegister at h
  split at h
  · rename_i hr; cases h; exact .inl ⟨hr.1, hr.2, rfl⟩
  · split at h
    · rename_i hr; cases h; exact .inr ⟨hr, rfl⟩
    · cases h

/-- The loop leaves the CRC register and the configuration alone. -/
theorem settle_keeps (now : Time) (e : Engine) :
    (settle now e).engine.crc = e.crc ∧ (settle now e).engine.cfgMaxPayload = e.cfgMaxPayload ∧
      (settle now e).engine.cfgTimeout = e.cfgTimeout := by
  refine settle_induction (now := now)
    (P := fun e e' _ => e'.crc = e.crc ∧ e'.cfgMaxPayload = e.cfgMaxPayload ∧ e'.cfgTimeout = e.cfgTimeout)
    ?_ ?_ ?_ ?_ ?_ ?_ ?_ e
  · intros; exact ⟨rfl, rfl, rfl⟩
  · intros; exact ⟨rfl, rfl, rfl⟩
  · intro e a b e' out _ _ _ h; exact h
  · intros; exact ⟨rfl, rfl, rfl⟩
  · intros; exact ⟨rfl, rfl, rfl⟩
  · intro e b i f e' out _ _ _ h; exact h
  · intro e b i k e' out _ _ _ h; exact h

/-- A delivery leaves the CRC register and the configuration alone. -/
theorem assemble_keeps (chunk : Bytes) (now : Time) (e : Engine) :
    (assemble chunk now e).engine.crc = e.crc ∧ (assemble chunk now e).engine.cfgMaxPayload = e.cfgMaxPayload ∧
      (assemble chunk now e).engine.cfgTimeout = e.cfgTimeout := by
  cases h : expired now e with
  | true => rw [assemble_expired h]; exact settle_keeps now (e.timedOut.append chunk)
  | false => rw [assemble_live h]; exact settle_keeps now (e.append chunk)

/-- A step with a request that decodes is that instruction's `exec`. -/
theorem step_of_decode {s : State} {r : Request} {rest : List Request} {i : Instr} (h : s.requests = r :: rest)
    (hd : decode r = .ok i) : step s = exec i { s with requests := rest } := by
  simp only [step, takeRequest_of_cons h, hd]

/-- Everything a step that answers a next state can have been: idle, or the `exec` of a decoded request. -/
theorem step_next_cases {s t : State} (h : step s = .next t) :
    (s.requests = [] ∧ t = s) ∨
      ∃ r rest i, s.requests = r :: rest ∧ decode r = .ok i ∧ exec i { s with requests := rest } = .next t := by
  rcases hr : s.requests with _ | ⟨r, rest⟩
  · simp only [step, takeRequest_of_nil hr] at h; cases h; exact .inl ⟨rfl, rfl⟩
  · simp only [step, takeRequest_of_cons hr] at h
    cases hd : decode r with
    | error e => rw [hd] at h; cases h
    | ok i => rw [hd] at h; exact .inr ⟨r, rest, i, rfl, hd, h⟩

end Sys2Proof.Machine
end

