-- ==== Sys2Proof/Laws/PerInstr.lean ====
section
/-! SUPPORT. The family `RoundTrip`: for each constructor, a well-formed instruction is what its encoding decodes to. -/

namespace Sys2Proof.Laws.RoundTrip

/-- A well-formed instruction's encoding decodes to it. -/
def Statement (i : Instr) : Prop := i.wf = true → Sys2Proof.decode (Sys2Proof.encode i) = .ok i

theorem reset : Statement .reset := fun _ => rfl
theorem sessionReset : Statement .sessionReset := fun _ => rfl
theorem statReset : Statement .statReset := fun _ => rfl
theorem cfgWrite (reg : Nat) (v : U32) : Statement (.cfgWrite reg v) := fun _ => rfl
theorem regRead (reg : Nat) : Statement (.regRead reg) := fun _ => rfl
theorem crcInit : Statement .crcInit := fun _ => rfl
theorem crcUpdate (b : Byte) : Statement (.crcUpdate b) := fun _ => rfl
theorem crcRead : Statement .crcRead := fun _ => rfl
theorem crcCalc (data : Bytes) : Statement (.crcCalc data) := fun _ => rfl
theorem escape (p : Bytes) : Statement (.escape p) := fun _ => rfl
theorem encode (t : Byte) (p : Bytes) : Statement (.encode t p) := fun _ => rfl
theorem unescape (d : Bytes) : Statement (.unescape d) := fun _ => rfl
theorem decode (f : Bytes) : Statement (.decode f) := fun _ => rfl
theorem diag (f : Bytes) : Statement (.diag f) := fun _ => rfl
theorem feed (chunk : Bytes) (now : Time) : Statement (.feed chunk now) := fun _ => rfl
theorem tick (now : Time) : Statement (.tick now) := fun _ => rfl
theorem wireStart (now : Time) : Statement (.wireStart now) := fun _ => rfl
theorem wireEnd (now : Time) : Statement (.wireEnd now) := fun _ => rfl
theorem wireEsc (now : Time) : Statement (.wireEsc now) := fun _ => rfl

theorem wireData (value : Byte) (now : Time) : Statement (.wireData value now) := by
  intro h
  simp only [Instr.wf, reservedBytes, List.contains_cons, List.contains_nil, Bool.or_false, Bool.not_or,
    Bool.and_eq_true, Bool.not_eq_true', beq_eq_false_iff_ne] at h
  simp only [Sys2Proof.encode, Sys2Proof.decode, instrOfWire, instrOfWireByte, if_neg h.1, if_neg h.2.1, if_neg h.2.2]

theorem pairStart (now : Time) : Statement (.pairStart now) := fun _ => rfl
theorem pairEnd (now : Time) : Statement (.pairEnd now) := fun _ => rfl
theorem pairEsc (now : Time) : Statement (.pairEsc now) := fun _ => rfl

theorem pairAny (x : Byte) (now : Time) : Statement (.pairAny x now) := by
  intro h
  simp only [Instr.wf, canonicalSeconds, List.contains_cons, List.contains_nil, Bool.or_false, Bool.not_or,
    Bool.and_eq_true, Bool.not_eq_true', beq_eq_false_iff_ne] at h
  simp only [Sys2Proof.encode, Sys2Proof.decode, instrOfWire, instrOfPair, if_true, if_neg h.1, if_neg h.2.1,
    if_neg h.2.2]

theorem frameHeader (length : U32) (crc : U16) (type : Byte) (now : Time) :
    Statement (.frameHeader length crc type now) := by
  intro _
  simp only [Sys2Proof.encode, bytesLe32, bytesLe16, List.cons_append, List.nil_append, Sys2Proof.decode, instrOfWire,
    if_true, u32_of_bytes, u16_of_bytes]

theorem framePayload (p : Byte) (now : Time) : Statement (.framePayload p now) := fun _ => rfl
theorem frameTrailer (now : Time) : Statement (.frameTrailer now) := fun _ => rfl

end Sys2Proof.Laws.RoundTrip
end

