-- ==== Sys2Proof/Tests/Slice0.lean ====
section
/-! SUPPORT. Tests: the well-formedness smoke tests, the encodings written out from 30_encoding.md, one or two vectors of
95_test_vectors.md for each instruction, and for each statement with hypotheses a witness that meets them. -/

namespace Sys2Proof.Tests

open Sys2Proof Sys2Proof.Machine

/-! Small states -/

/-- `buf`, `pending_since` and the counters as given, `cfg_max_payload` as given, `cfg_timeout` 1000. -/
def engineWith (buf : Bytes) (pendingSince : Option Time) (maxPayload : U32) : Engine :=
  { crc := 0xFFFF, buf, pendingSince, counters := Counters.zero, cfgMaxPayload := maxPayload, cfgTimeout := 1000 }

/-- A state with nothing issued. -/
def stateWith (buf : Bytes) (pendingSince : Option Time) (maxPayload : U32) : State :=
  { engine := engineWith buf pendingSince maxPayload, requests := [], response := .none }

/-- The vectors' start: after `RESET` with `MAX_PAYLOAD_SIZE = 64`. -/
def fresh : State := stateWith [] none 64

/-- The engine and the response after an instruction, if it answers a next state. -/
def after (i : Instr) (s : State) : Option (Engine × Response) :=
  match exec i s with
  | .next t => some (t.engine, t.response)
  | .fault _ => none
  | .refused _ => none

/-- `buf`, `pending_since` and the seven counters after an instruction, with its response (the form of section 5). -/
def view (i : Instr) (s : State) : Option (Response × Bytes × Option Time × List U32) :=
  (after i s).map fun r => (r.2, r.1.buf, r.1.pendingSince,
    [r.1.counters.messagesReceived, r.1.counters.bytesReceived, r.1.counters.framingErrors, r.1.counters.crcErrors,
      r.1.counters.escapeErrors, r.1.counters.overflowErrors, r.1.counters.timeoutErrors])

/-- Frame `A` of 95_test_vectors.md, and its payload. -/
def frameA : Bytes :=
  [0x7E, 0x07, 0x00, 0x00, 0x00, 0x94, 0x89, 0x01, 0x7B, 0x22, 0x61, 0x22, 0x3A, 0x31, 0x7D, 0x5D, 0x7F]

def payloadA : Bytes := [0x7B, 0x22, 0x61, 0x22, 0x3A, 0x31, 0x7D]

/-- Frame `B`. -/
def frameB : Bytes := [0x7E, 0x03, 0x00, 0x00, 0x00, 0x80, 0x57, 0x02, 0x61, 0x7D, 0x5E, 0x62, 0x7F]

/-- The shortest frame, `ENCODE(0x00, [])` (V-ENC-3). -/
def frame0 : Bytes := [0x7E, 0x00, 0x00, 0x00, 0x00, 0xFF, 0xFF, 0x00, 0x7F]

/-! WellFormed: the two catch-all rows refuse the bytes of a more special row, and take the neighbours -/

theorem test_wf_data_refuses_start : (Instr.wireData 0x7E 0).wf = false := by decide
theorem test_wf_data_refuses_end : (Instr.wireData 0x7F 0).wf = false := by decide
theorem test_wf_data_refuses_esc : (Instr.wireData 0x7D 0).wf = false := by decide
theorem test_wf_data_takes_neighbours : (Instr.wireData 0x7C 0).wf = true ∧ (Instr.wireData 0x80 0).wf = true := by decide
theorem test_wf_any_refuses_start : (Instr.pairAny 0x5E 0).wf = false := by decide
theorem test_wf_any_refuses_end : (Instr.pairAny 0x5F 0).wf = false := by decide
theorem test_wf_any_refuses_esc : (Instr.pairAny 0x5D 0).wf = false := by decide
theorem test_wf_any_takes_neighbours : (Instr.pairAny 0x5C 0).wf = true ∧ (Instr.pairAny 0x60 0).wf = true := by decide

/-! Decoding: every row of the table, its word written bit by bit -/

/-- R82, the system operations. -/
theorem test_decode_system :
    decodeTableWord 8 0b00000000 = some .reset ∧ decodeTableWord 8 0b00000001 = some .sessionReset ∧
    decodeTableWord 8 0b00000010 = some .statReset ∧ decodeTableWord 8 0b00000011 = some (.cfgWrite 0 0) ∧
    decodeTableWord 8 0b00000100 = some (.regRead 0) := by decide

/-- R82, the CRC operations. -/
theorem test_decode_crc :
    decodeTableWord 8 0b00010000 = some .crcInit ∧ decodeTableWord 8 0b00010001 = some (.crcUpdate 0) ∧
    decodeTableWord 8 0b00010010 = some .crcRead ∧ decodeTableWord 8 0b00010011 = some (.crcCalc []) := by decide

/-- R82, the codec operations. -/
theorem test_decode_codec :
    decodeTableWord 8 0b00100000 = some (.escape []) ∧ decodeTableWord 8 0b00100001 = some (.encode 0 []) ∧
    decodeTableWord 8 0b00110000 = some (.unescape []) ∧ decodeTableWord 8 0b00110001 = some (.decode []) ∧
    decodeTableWord 8 0b00110010 = some (.diag []) := by decide

/-- R82, the assembler operations. -/
theorem test_decode_assembler :
    decodeTableWord 8 0b01000000 = some (.feed [] 0) ∧ decodeTableWord 8 0b01000001 = some (.tick 0) := by decide

/-- R75, one received byte. -/
theorem test_decode_wire_byte :
    decodeTableWord 8 0b01111110 = some (.wireStart 0) ∧ decodeTableWord 8 0b01111111 = some (.wireEnd 0) ∧
    decodeTableWord 8 0b01111101 = some (.wireEsc 0) ∧ decodeTableWord 8 0b11111111 = some (.wireData 0xFF 0) := by decide

/-- R76, R77: the first byte of a pair is the upper half of the row's number. -/
theorem test_decode_pair :
    decodeTableWord 16 0b0111110101011110 = some (.pairStart 0) ∧ decodeTableWord 16 0b0111110101011111 = some (.pairEnd 0) ∧
    decodeTableWord 16 0b0111110101011101 = some (.pairEsc 0) ∧
    decodeTableWord 16 0b0111110100000000 = some (.pairAny 0 0) ∧
    decodeTableWord 16 0b0111110001011110 = none := by decide

/-- R70, R72, R73: the header of frame `A`, and one with every bit of the fields set. -/
theorem test_decode_header :
    decodeTableWord 64 0x7E07000000948901 = some (.frameHeader 7 0x8994 0x01 0) ∧
    decodeTableWord 64 0x7EFFFFFFFFFFFFFF = some (.frameHeader 0xFFFFFFFF 0xFFFF 0xFF 0) ∧
    decodeTableWord 64 0x7F07000000948901 = none := by decide

/-- R70, R74: a payload byte and the trailer, in their own formats. -/
theorem test_decode_frame_parts :
    decode (.wire .framePayload [0x7B] 9) = .ok (.framePayload 0x7B 9) ∧
    decode (.wire .frameTrailer [0x7F] 9) = .ok (.frameTrailer 9) ∧
    decode (.wire .frameTrailer [0x7E] 9) = .error (.notOfForm .frameTrailer) := ⟨rfl, rfl, rfl⟩

/-- R81: the operands are those of the table, in number and type. -/
theorem test_decode_operands :
    decode (.op 0x03 [.index 1, .word 4]) = .ok (.cfgWrite 1 4) ∧
    decode (.op 0x21 [.byte 0x01, .bytes [0x61]]) = .ok (.encode 0x01 [0x61]) ∧
    decode (.op 0x40 [.bytes [0x7E], .word 5]) = .ok (.feed [0x7E] 5) ∧
    decode (.op 0x41 []) = .error (.operandMismatch 0x41) := ⟨rfl, rfl, rfl, rfl⟩

/-- R82: the numbers beside the table's groups name nothing. -/
theorem test_decode_unknown :
    decode (.op 0x05 []) = .error (.unknownOperation 0x05) ∧ decode (.op 0x0F []) = .error (.unknownOperation 0x0F) ∧
    decode (.op 0x14 []) = .error (.unknownOperation 0x14) ∧ decode (.op 0x42 []) = .error (.unknownOperation 0x42) ∧
    decode (.op 0xFF []) = .error (.unknownOperation 0xFF) := ⟨rfl, rfl, rfl, rfl, rfl⟩

/-! The first step after reset -/

theorem test_step_runs_placed_word :
    step (State.reset.withFetchWord 8 0x13) = .next { State.reset with response := .crc 0xFFFF } := rfl

theorem test_step_idle : step State.reset = .next State.reset := rfl

/-! System operations -/

/-- V-SYS-2: `STAT.RESET` after V-ASM-1. -/
theorem test_stat_reset :
    view .statReset { fresh with engine := { fresh.engine with counters := ⟨3, 42, 0, 0, 0, 0, 0⟩ } } =
      some (.none, [], none, [0, 0, 0, 0, 0, 0, 0]) := by decide

/-- V-ASM-23: `SESSION.RESET` in mid-frame. -/
theorem test_session_reset :
    view .sessionReset (stateWith [0x7E, 0x07] (some 0) 64) = some (.none, [], none, [0, 0, 0, 0, 0, 0, 0]) := by decide

/-- V-SYS-1, P4: `RESET` from a state where everything stands otherwise. -/
theorem test_reset :
    (after .reset { fresh with engine := ⟨0x1234, [0x7E], some 3, ⟨1, 2, 3, 4, 5, 6, 7⟩, 4, 250⟩ }).map
      (fun r => (r.1.crc, r.1.buf, r.1.pendingSince, r.1.counters, r.1.cfgTimeout)) =
      some (0xFFFF, [], none, ⟨0, 0, 0, 0, 0, 0, 0⟩, 1000) := by decide

/-- V-SYS-3: the largest legal `cfg_max_payload`. -/
theorem test_cfg_write_limit :
    (after (.cfgWrite 1 0xFFFFFFF6) fresh).map (fun r => (r.1.cfgMaxPayload, r.2)) = some (0xFFFFFFF6, .ok) := by decide

/-- V-SYS-3: the smallest illegal one, and a read-only register. -/
theorem test_cfg_write_refused :
    after (.cfgWrite 1 0xFFFFFFF7) fresh = some (fresh.engine, .refused) ∧
    after (.cfgWrite 8 0) fresh = some (fresh.engine, .refused) := by decide

/-- V-SYS-4: STATUS, BUF_LEN and PENDING_SINCE with a frame pending. -/
theorem test_reg_read_pending :
    let s := stateWith [0x7E, 0x05, 0x00] (some 100) 64
    after (.regRead 3) s = some (s.engine, .register 3) ∧ after (.regRead 4) s = some (s.engine, .register 3) ∧
      after (.regRead 5) s = some (s.engine, .register 100) := by decide

/-- V-SYS-1: the numbers that name no register. -/
theorem test_reg_read_refused :
    after (.regRead 6) fresh = some (fresh.engine, .refused) ∧ after (.regRead 7) fresh = some (fresh.engine, .refused) ∧
      after (.regRead 15) fresh = some (fresh.engine, .refused) := by decide

/-! The CRC unit -/

/-- V-CRC-4. -/
theorem test_crc_init :
    (after .crcInit { fresh with engine := { fresh.engine with crc := 0x947E } }).map (fun r => r.1.crc) =
      some 0xFFFF := by decide

/-- V-CRC-4: the first byte of `123456789`. -/
theorem test_crc_update : (after (.crcUpdate 0x31) fresh).map (fun r => r.1.crc) = some 0x947E := by decide

/-- V-CRC-2. -/
theorem test_crc_step :
    crcStep 0x0000 0x01 = 0xC0C1 ∧ crcStep 0x0001 0x00 = 0xC0C1 ∧ crcStep 0x8000 0x00 = 0x0080 ∧
      crcStep 0x4B37 0x37 = 0x004B := by decide

/-- V-CRC-4: reading does not change the register. -/
theorem test_crc_read :
    after .crcRead { fresh with engine := { fresh.engine with crc := 0xF595 } } =
      some ({ fresh.engine with crc := 0xF595 }, .crc 0xF595) := by decide

/-- V-CRC-6: the streaming register is left alone. -/
theorem test_crc_calc :
    after (.crcCalc [0x7B, 0x7D]) { fresh with engine := { fresh.engine with crc := 0x947E } } =
      some ({ fresh.engine with crc := 0x947E }, .crc 0x61E3) := by decide +kernel

/-- V-CRC-1: the payload of frame `A`. -/
theorem test_crc_payload : crc16 payloadA = 0x8994 := by decide +kernel

/-! The codec -/

/-- V-ESC-1. -/
theorem test_escape :
    after (.escape [0x7C, 0x7D, 0x7E, 0x7F, 0x80, 0x5D, 0x5E, 0x5F]) fresh =
      some (fresh.engine, .bytes [0x7C, 0x7D, 0x5D, 0x7D, 0x5E, 0x7D, 0x5F, 0x80, 0x5D, 0x5E, 0x5F]) := by decide

/-- V-ENC-1. -/
theorem test_encode_A : after (.encode 0x01 payloadA) fresh = some (fresh.engine, .bytes frameA) := by decide +kernel

/-- V-ENC-4. -/
theorem test_encode_reserved :
    after (.encode 0x7F [0x7D, 0x7E, 0x7F]) fresh = some (fresh.engine, .bytes
      [0x7E, 0x03, 0x00, 0x00, 0x00, 0x81, 0x98, 0x7F, 0x7D, 0x5D, 0x7D, 0x5E, 0x7D, 0x5F, 0x7F]) := by decide +kernel

/-- V-UNE-1: a dangling `ESC`, and a pair whose second byte is `ESC`. -/
theorem test_unescape_esc :
    after (.unescape [0x7D, 0x7D, 0x7D]) fresh = some (fresh.engine, .unescaped (.err .escapeSequence)) ∧
    after (.unescape [0x7D, 0x7D]) fresh = some (fresh.engine, .unescaped (.ok [0x5D])) := by decide

/-- V-UNE-1: raw markers are literal. -/
theorem test_unescape_raw :
    after (.unescape [0x7E, 0x7F]) fresh = some (fresh.engine, .unescaped (.ok [0x7E, 0x7F])) := by decide

/-- V-DEC-2. -/
theorem test_decode_B :
    after (.decode frameB) fresh = some (fresh.engine, .decoded (.ok ⟨0x02, [0x61, 0x7E, 0x62]⟩)) := by decide +kernel

/-- V-DEC-8: the first failing step decides. -/
theorem test_decode_priority :
    after (.decode [0x7E, 0x09, 0x00, 0x00, 0x00, 0x00, 0x00, 0x01, 0x7B, 0x22, 0x7D, 0x7F]) fresh =
      some (fresh.engine, .decoded (.err .escapeSequence)) ∧
    after (.decode [0x00, 0x09, 0x00, 0x00, 0x00, 0x00, 0x00, 0x01, 0x7B, 0x22, 0x7D, 0x7F]) fresh =
      some (fresh.engine, .decoded (.err .framing)) := by decide

/-- V-DIAG-3. -/
theorem test_diag_short :
    after (.diag [0x7E, 0x00, 0x7F]) fresh = some (fresh.engine, .diag
      ⟨true, true, true, none, none, none, none, none, none, none, none, .err .framing⟩) := by decide

/-- V-DIAG-5. -/
theorem test_diag_all_failures :
    after (.diag [0x00, 0x08, 0x00, 0x00, 0x00, 0x94, 0x89, 0x01, 0x7B, 0x22, 0x61, 0x22, 0x3A, 0x31, 0x7D, 0x5D, 0x7F])
      fresh = some (fresh.engine, .diag
        ⟨false, false, true, some 8, some 0x8994, some 0x01, some true, some 7, some false, some 0x8994, some true,
          .err .framing⟩) := by decide +kernel

/-! The assembler -/

/-- V-ASM-4. -/
theorem test_feed_garbage :
    view (.feed ([0x00, 0xFF, 0x7F, 0x7D] ++ frameA) 0) fresh =
      some (.assembled [.error .framing, .frame ⟨0x01, payloadA⟩] [], [], none, [1, 17, 1, 0, 0, 0, 0]) := by decide +kernel

/-- V-ASM-11: a chunk after the deadline. -/
theorem test_feed_late :
    view (.feed [0x61, 0x22, 0x3A, 0x31, 0x7D, 0x5D, 0x7F] 1001)
        (stateWith [0x7E, 0x07, 0x00, 0x00, 0x00, 0x94, 0x89, 0x01, 0x7B, 0x22] (some 0) 64) =
      some (.assembled [.error .timeout, .error .framing] [], [], none, [0, 0, 1, 0, 0, 0, 1]) := by decide

/-- V-ASM-19: the time wraps; 1000 is not late, 1001 is. -/
theorem test_tick_wraps :
    view (.tick 0x000002E8) (stateWith [0x7E, 0x05, 0x00] (some 0xFFFFFF00) 64) =
      some (.assembled [] [0x7E, 0x05, 0x00], [0x7E, 0x05, 0x00], some 0xFFFFFF00, [0, 0, 0, 0, 0, 0, 0]) ∧
    view (.tick 0x000002E9) (stateWith [0x7E, 0x05, 0x00] (some 0xFFFFFF00) 64) =
      some (.assembled [.error .timeout] [], [], none, [0, 0, 0, 0, 0, 0, 1]) :=
  ⟨by decide +kernel, by decide +kernel⟩

/-- V-ASM-12: a later `7E` becomes pending with a new timestamp. -/
theorem test_tick_resync :
    view (.tick 2000) (stateWith [0x7E, 0x05, 0x00, 0x00, 0x00, 0xAA, 0xBB, 0x01, 0x41, 0x7E, 0x00, 0x00] (some 0) 64) =
      some (.assembled [.error .timeout] [0x7E, 0x00, 0x00], [0x7E, 0x00, 0x00], some 2000, [0, 0, 0, 0, 0, 0, 1]) := by
  decide

/-! The received forms, byte by byte -/

/-- V-ASM-3: the `START` of `B`. -/
theorem test_wire_start : view (.wireStart 0) fresh = some (.assembled [] [0x7E], [0x7E], some 0, [0, 0, 0, 0, 0, 0, 0]) := by
  decide

/-- V-ASM-28: the `END` behind a bare header. -/
theorem test_wire_end :
    view (.wireEnd 1) (stateWith [0x7E, 0x00, 0x00, 0x00, 0x00, 0xFF, 0xFF, 0x07] (some 0) 64) =
      some (.assembled [.frame ⟨0x07, []⟩] [], [], none, [1, 9, 0, 0, 0, 0, 0]) := by decide

/-- V-ASM-7: an `ESC` in the payload region waits. -/
theorem test_wire_esc :
    view (.wireEsc 0) (stateWith [0x7E, 0x01, 0x00, 0x00, 0x00, 0xFF, 0x78, 0x00] (some 0) 64) =
      some (.assembled [] [0x7E, 0x01, 0x00, 0x00, 0x00, 0xFF, 0x78, 0x00, 0x7D],
        [0x7E, 0x01, 0x00, 0x00, 0x00, 0xFF, 0x78, 0x00, 0x7D], some 0, [0, 0, 0, 0, 0, 0, 0]) := by decide

/-- V-ASM-16: a byte with no `START` before it is noise. -/
theorem test_wire_data : view (.wireData 0x01 0) fresh = some (.assembled [.error .framing] [], [], none, [0, 0, 1, 0, 0, 0, 0]) := by
  decide

/-- V-ASM-3: the pair in `B`. -/
theorem test_pair_start :
    view (.pairStart 10) (stateWith [0x7E, 0x03, 0x00, 0x00, 0x00, 0x80, 0x57, 0x02, 0x61] (some 0) 64) =
      some (.assembled [] [0x7E, 0x03, 0x00, 0x00, 0x00, 0x80, 0x57, 0x02, 0x61, 0x7D, 0x5E],
        [0x7E, 0x03, 0x00, 0x00, 0x00, 0x80, 0x57, 0x02, 0x61, 0x7D, 0x5E], some 0, [0, 0, 0, 0, 0, 0, 0]) := by decide

/-- V-ASM-5: a pair with no `START` before it is noise. -/
theorem test_pair_end : view (.pairEnd 1) fresh = some (.assembled [.error .framing] [], [], none, [0, 0, 1, 0, 0, 0, 0]) := by
  decide

/-- V-ASM-22: the pair that makes the waiting bytes too many. -/
theorem test_pair_esc :
    view (.pairEsc 1) (stateWith [0x7E, 0x07, 0x00, 0x00, 0x00, 0x94, 0x89, 0x01, 0x7B, 0x22] (some 0) 2) =
      some (.assembled [.error .bufferOverflow] [], [], none, [0, 0, 0, 0, 0, 1, 0]) := by decide

/-- V-ASM-7: the `7F` of a pair does not end the frame. -/
theorem test_pair_any :
    view (.pairAny 0x7F 5) (stateWith [0x7E, 0x01, 0x00, 0x00, 0x00, 0xFF, 0x78, 0x00] (some 0) 64) =
      some (.assembled [] [0x7E, 0x01, 0x00, 0x00, 0x00, 0xFF, 0x78, 0x00, 0x7D, 0x7F],
        [0x7E, 0x01, 0x00, 0x00, 0x00, 0xFF, 0x78, 0x00, 0x7D, 0x7F], some 0, [0, 0, 0, 0, 0, 0, 0]) := by decide

/-- V-ASM-28: exactly the header. -/
theorem test_frame_header :
    view (.frameHeader 0 0xFFFF 0x07 0) fresh =
      some (.assembled [] [0x7E, 0x00, 0x00, 0x00, 0x00, 0xFF, 0xFF, 0x07],
        [0x7E, 0x00, 0x00, 0x00, 0x00, 0xFF, 0xFF, 0x07], some 0, [0, 0, 0, 0, 0, 0, 0]) := by decide

/-- V-ASM-18: the ninth waiting byte is within the bound of `cfg_max_payload = 0`. -/
theorem test_frame_payload :
    view (.framePayload 0x61 3) (stateWith [0x7E, 0x01, 0x00, 0x00, 0x00, 0x7E, 0xA8, 0x00] (some 3) 0) =
      some (.assembled [] [0x7E, 0x01, 0x00, 0x00, 0x00, 0x7E, 0xA8, 0x00, 0x61],
        [0x7E, 0x01, 0x00, 0x00, 0x00, 0x7E, 0xA8, 0x00, 0x61], some 3, [0, 0, 0, 0, 0, 0, 0]) := by decide

/-- V-ASM-18: and its `END` completes the frame. -/
theorem test_frame_trailer :
    view (.frameTrailer 4) (stateWith [0x7E, 0x01, 0x00, 0x00, 0x00, 0x7E, 0xA8, 0x00, 0x61] (some 3) 0) =
      some (.assembled [.frame ⟨0x00, [0x61]⟩] [], [], none, [1, 10, 0, 0, 0, 0, 0]) := by decide

/-! Witnesses: the hypotheses of each statement can be met, at the edges of their ranges -/

theorem witness_step_decodes :
    (State.reset.withFetchWord 8 0x10).requests = .op 0x10 [] :: [] ∧ decode (.op 0x10 []) = .ok .crcInit := ⟨rfl, rfl⟩

theorem witness_step_refuses :
    (putRequest fresh (.op 0x05 [])).requests = .op 0x05 [] :: [] ∧
      decode (.op 0x05 []) = .error (.unknownOperation 0x05) := ⟨rfl, rfl⟩

theorem witness_step_idle : fresh.requests = [] := rfl

theorem witness_unknown_number :
    (0x05 : Byte).toNat ∉ [0x00, 0x01, 0x02, 0x03, 0x04, 0x10, 0x11, 0x12, 0x13, 0x20, 0x21, 0x30, 0x31, 0x32, 0x40, 0x41] ∧
    (0xFF : Byte).toNat ∉ [0x00, 0x01, 0x02, 0x03, 0x04, 0x10, 0x11, 0x12, 0x13, 0x20, 0x21, 0x30, 0x31, 0x32, 0x40, 0x41] ∧
      (putRequest fresh (.op 0xFF [])).requests = .op 0xFF [] :: [] := by decide

theorem witness_reg_read :
    fresh.engine.buf.length < 2 ^ 32 ∧ fresh.engine.pendingSince = none ∧
      (stateWith [0x7E] (some 0) 64).engine.pendingSince = some 0 := by decide

theorem witness_affine : ([0x00, 0xFF] : Bytes).length = ([0x7E, 0x7F] : Bytes).length := rfl

/-- A window of 16 bits across a byte boundary, and at both of its ends a bit that differs. -/
theorem witness_burst :
    ([0x00, 0x00, 0x00] : Bytes).length = ([0x80, 0x00, 0x40] : Bytes).length ∧
    ([0x00, 0x00, 0x00] : Bytes) ≠ [0x80, 0x00, 0x40] ∧
    ∀ j, (byteAt [0x00, 0x00, 0x00] (j / 8)).getLsbD (j % 8) ≠ (byteAt [0x80, 0x00, 0x40] (j / 8)).getLsbD (j % 8) →
      7 ≤ j ∧ j < 7 + 16 := by
  refine ⟨rfl, by decide, fun j hj => ?_⟩
  by_cases h : j < 24
  · revert hj; revert h; revert j; decide
  · have : ∀ s : Bytes, s.length = 3 → byteAt s (j / 8) = 0 := fun s hs => by
      simp [byteAt, List.getD_eq_getElem?_getD, List.getElem?_eq_none (l := s) (i := j / 8) (by omega)]
    simp [this] at hj

theorem witness_escaped_pair : escapeBytes [0x61, 0x7E] = [0x61] ++ 0x7D :: [0x5E] := by decide

theorem witness_encode : ([] : Bytes).length < 2 ^ 32 ∧ payloadA.length < 2 ^ 32 := by decide

theorem witness_encode_too_long : ∃ p : Bytes, 2 ^ 32 ≤ p.length :=
  ⟨List.replicate (2 ^ 32) 0, by rw [List.length_replicate]⟩

/-- One candidate for each clause of `DECODE`, at the shortest lengths. -/
theorem witness_decode_short : ([0x7E, 0x00, 0x00, 0x00, 0x00, 0xFF, 0x7F] : Bytes).length = 7 := rfl
theorem witness_decode_markers : ∃ f : Bytes, f.length = 8 ∧ byteAt f 0 ≠ 0x7E ∧ byteAt f (f.length - 1) = 0x7F :=
  ⟨[0x7F, 0x00, 0x00, 0x00, 0x00, 0xFF, 0xFF, 0x7F], by decide⟩
theorem witness_decode_escape :
    ∃ f : Bytes, f.length = 10 ∧ byteAt f 0 = 0x7E ∧ byteAt f (f.length - 1) = 0x7F ∧
      unescapeBytes ((f.take (f.length - 1)).drop 8) = .err .escapeSequence :=
  ⟨[0x7E, 0x00, 0x00, 0x00, 0x00, 0xFF, 0xFF, 0x00, 0x7D, 0x7F], by decide⟩
theorem witness_decode_length :
    ∃ f : Bytes, f.length = 8 ∧ byteAt f 0 = 0x7E ∧ byteAt f (f.length - 1) = 0x7F ∧
      unescapeBytes ((f.take (f.length - 1)).drop 8) = .ok [] ∧ (byteAt f 1).toNat = 1 :=
  ⟨[0x7E, 0x01, 0x00, 0x00, 0x00, 0xFF, 0xFF, 0x7F], by decide⟩
theorem witness_decode_crc :
    ∃ f : Bytes, f.length = 8 ∧ byteAt f 0 = 0x7E ∧ byteAt f (f.length - 1) = 0x7F ∧
      unescapeBytes ((f.take (f.length - 1)).drop 8) = .ok [] ∧ le32 f 1 = 0 ∧ crc16 [] ≠ le16 f 5 :=
  ⟨[0x7E, 0x00, 0x00, 0x00, 0x00, 0x00, 0x00, 0x7F], by decide⟩
theorem witness_decode_ok :
    frame0.length = 9 ∧ byteAt frame0 0 = 0x7E ∧ byteAt frame0 (frame0.length - 1) = 0x7F ∧
      unescapeBytes ((frame0.take (frame0.length - 1)).drop 8) = .ok [] ∧ le32 frame0 1 = 0 ∧ crc16 [] = le16 frame0 5 := by
  decide

theorem witness_eight_bytes :
    ([0x7E, 0x00, 0x00, 0x00, 0x00, 0xFF, 0xFF, 0x7F] : Bytes).length = 8 ∧
      after (.decode [0x7E, 0x00, 0x00, 0x00, 0x00, 0xFF, 0xFF, 0x7F]) fresh =
        some (fresh.engine, .decoded (.ok ⟨0x7F, []⟩)) := by decide

/-- A flip that destroys an `ESC`, and one that touches none (V-DEC-10, V-DEC-9). -/
theorem witness_flip :
    payloadA.length < 2 ^ 32 ∧ 6 < (escapeBytes payloadA).length ∧ byteAt (encodeFrame 0x01 payloadA) (8 + 6) = 0x7D ∧
      byteAt (encodeFrame 0x01 payloadA) (8 + 2) = 0x61 ∧ (0x61 : Byte) ^^^ (1#8 <<< 0) = 0x60 := by decide

theorem witness_type_byte :
    9 ≤ frame0.length ∧ exec (.decode frame0) fresh = .next { fresh with response := .decoded (.ok ⟨0x00, []⟩) } :=
  ⟨by decide, rfl⟩

theorem witness_diag :
    ([0x7E, 0x00, 0x7F] : Bytes).length < 8 ∧ 8 ≤ frameA.length ∧
      unescapeBytes ((frameA.take (frameA.length - 1)).drop 8) = .ok payloadA := by decide
theorem witness_diag_escape :
    ∃ f : Bytes, 8 ≤ f.length ∧ unescapeBytes ((f.take (f.length - 1)).drop 8) = .err .escapeSequence :=
  ⟨[0x7E, 0x09, 0x00, 0x00, 0x00, 0x00, 0x00, 0x01, 0x7B, 0x22, 0x7D, 0x7F], by decide⟩

/-- Every buffer with no pending frame is live. -/
theorem live_of_none (b : Bytes) (m : U32) (now : Time) : (engineWith b none m).Live now := fun _ h => by cases h

/-- At exactly `cfg_timeout` the frame is still live; the time may wrap. -/
theorem witness_live_edge : (engineWith [0x7E] (some 0xFFFFFF00) 64).Live 0x000002E8 := fun t h => by
  cases h; decide

/-- One past it the frame is expired; nothing is kept, or the bytes from the next `START`. -/
theorem witness_times_out :
    let s := stateWith [0x7E, 0x05] (some 0) 64
    s.engine.pendingSince = some 0 ∧ s.engine.cfgTimeout.toNat < ((1001 : Time) - 0).toNat ∧
      s.engine.buf = [0x7E, 0x05] ++ [] ∧ ([0x7E, 0x05] : Bytes) ≠ [] ∧ (0x7E : Byte) ∉ [0x7E, 0x05].tail := by
  decide
theorem witness_times_out_keeps :
    let s := stateWith [0x7E, 0x05, 0x7E] (some 0) 64
    s.engine.pendingSince = some 0 ∧ s.engine.cfgTimeout.toNat < ((1001 : Time) - 0).toNat ∧
      s.engine.buf = [0x7E, 0x05] ++ (0x7E :: []) ∧ (0x7E : Byte) ∉ [0x7E, 0x05].tail := by
  decide

/-- The premise of R233 with a clock that wraps between the readings (V-ASM-19), and at the longest time it allows. -/
theorem witness_one_clock :
    (stateWith [0x7E, 0x05, 0x00] (some 0xFFFFFF00) 64).engine.pendingSince = some 0xFFFFFF00 ∧
      deliveredBy (.tick 0x000002E9) = some ([], 0x000002E9) ∧
      MonotonicClock 0xFFFFFF00 0x000002E8 4294967040 (4294967040 + 1000) ∧
      MonotonicClock 0xFFFFFF00 0x000002E9 4294967040 (4294967040 + 1001) ∧
      MonotonicClock 5 4 5 (5 + 4294967295) :=
  ⟨rfl, rfl, ⟨rfl, rfl, by decide, by decide⟩, ⟨rfl, rfl, by decide, by decide⟩, ⟨rfl, rfl, by decide, by decide⟩⟩

/-- A clock that goes back by one millisecond, and by the longest step that is sure to expire. -/
theorem witness_clock_backwards :
    (99 : Time) = clockReading 99 ∧ (100 : Time) = clockReading 100 ∧ 99 < 100 ∧
      100 - 99 + fresh.engine.cfgTimeout.toNat < 2 ^ 32 ∧
      4294966295 + fresh.engine.cfgTimeout.toNat + 1 = 2 ^ 32 := by decide

/-- The bytes beside the reserved ones and beside the canonical second bytes are those of the catch-all rows. -/
theorem witness_received_forms :
    decode (.wire .wireByte [0x7C] 5) = .ok (.wireData 0x7C 5) ∧ decode (.wire .wireByte [0x80] 5) = .ok (.wireData 0x80 5) ∧
      decode (.wire .escapePair [0x7D, 0x5C] 5) = .ok (.pairAny 0x5C 5) ∧
      decode (.wire .escapePair [0x7D, 0x60] 5) = .ok (.pairAny 0x60 5) := ⟨rfl, rfl, rfl, rfl⟩

theorem witness_no_start :
    fresh.engine.Live 0 ∧ 0x7E ∉ fresh.engine.buf ++ ([] : Bytes) ∧ fresh.engine.buf ++ ([] : Bytes) = [] ∧
      0x7E ∉ fresh.engine.buf ++ [0x7F] ∧ fresh.engine.buf ++ ([0x7F] : Bytes) ≠ [] :=
  ⟨live_of_none _ _ _, by decide⟩

theorem witness_noise :
    fresh.engine.Live 0 ∧ fresh.engine.buf ++ [0x7F, 0x7E] = [0x7F] ++ 0x7E :: [] ∧ (0x7E : Byte) ∉ [0x7F] :=
  ⟨live_of_none _ _ _, by decide⟩

/-- Seven bytes are too few for a header; nine are the bound of `cfg_max_payload = 0`. -/
theorem witness_waits :
    let s := stateWith [] none 0
    let short : Bytes := [0x01, 0x00, 0x00, 0x00, 0x7E, 0xA8]
    let long : Bytes := [0x01, 0x00, 0x00, 0x00, 0x7E, 0xA8, 0x00, 0x61]
    s.engine.Live 0 ∧ s.engine.buf ++ 0x7E :: short = 0x7E :: short ∧ (0x7E :: short).length = 7 ∧
      s.engine.buf ++ 0x7E :: long = 0x7E :: long ∧ endScan (0x7E :: long) = none ∧
      (0x7E :: long).length = s.engine.cfgMaxPayload.toNat + 9 :=
  ⟨live_of_none _ _ _, by decide⟩

/-- Ten bytes are one over it. -/
theorem witness_overflows :
    let s := stateWith [] none 0
    let b : Bytes := [0x02, 0x00, 0x00, 0x00, 0xA9, 0xC9, 0x00, 0x61, 0x62]
    s.engine.Live 0 ∧ s.engine.buf ++ 0x7E :: b = 0x7E :: b ∧ 8 ≤ (0x7E :: b).length ∧ endScan (0x7E :: b) = none ∧
      (0x7E :: b).length = s.engine.cfgMaxPayload.toNat + 10 :=
  ⟨live_of_none _ _ _, by decide⟩

theorem witness_accepts :
    fresh.engine.Live 0 ∧ fresh.engine.buf ++ (frame0 ++ [0x41]) = 0x7E :: (frame0.tail ++ [0x41]) ∧
      endScan (0x7E :: (frame0.tail ++ [0x41])) = some 8 ∧
      decodeFrame ((0x7E :: (frame0.tail ++ [0x41])).take (8 + 1)) = .ok ⟨0x00, []⟩ :=
  ⟨live_of_none _ _ _, by decide⟩

/-- V-ASM-15, V-ASM-6: a rejected slice with nothing kept, and one with a `START` behind it. -/
theorem witness_rejects :
    let x : Bytes := [0x01, 0x00, 0x00, 0x00, 0xFE, 0xA0, 0x00, 0x7F, 0x7F]
    fresh.engine.Live 0 ∧ fresh.engine.buf ++ 0x7E :: x = 0x7E :: (x ++ []) ∧ 0x7E ∉ x ∧
      endScan (0x7E :: (x ++ [])) = some 8 ∧ decodeFrame ((0x7E :: (x ++ [])).take (8 + 1)) = .err .framing :=
  ⟨live_of_none _ _ _, by decide⟩
theorem witness_rejects_crc :
    let x : Bytes := [0x00, 0x00, 0x00, 0x00, 0xFE, 0xFF, 0x00, 0x7F]
    fresh.engine.Live 0 ∧ fresh.engine.buf ++ (0x7E :: (x ++ [0x7E, 0x03])) = 0x7E :: (x ++ 0x7E :: [0x03]) ∧ 0x7E ∉ x ∧
      endScan (0x7E :: (x ++ 0x7E :: [0x03])) = some 8 ∧
      decodeFrame ((0x7E :: (x ++ 0x7E :: [0x03])).take (8 + 1)) = .err .crc :=
  ⟨live_of_none _ _ _, by decide⟩

/-- An Idle state meets the invariant. -/
theorem witness_inv_idle : fresh.Inv := ⟨.inl ⟨rfl, rfl⟩, by decide, by decide⟩

/-- A Pending state meets it, and its buffer may exceed the present bound (V-ASM-22). -/
theorem witness_inv_pending : (stateWith [0x7E, 0x05, 0x00] (some 5) 64).Inv :=
  ⟨.inr ⟨rfl, rfl, .inl (by decide)⟩, by decide, by decide⟩

theorem witness_step_keeps :
    (stateWith [0x7E, 0x05, 0x00] (some 5) 64).Inv ∧
      step (stateWith [0x7E, 0x05, 0x00] (some 5) 64) = .next (stateWith [0x7E, 0x05, 0x00] (some 5) 64) :=
  ⟨witness_inv_pending, rfl⟩

theorem witness_empty_delivery :
    (stateWith [0x7E, 0x05, 0x00] (some 5) 64).Inv ∧ (stateWith [0x7E, 0x05, 0x00] (some 5) 64).engine.Live 1005 ∧
      (stateWith [0x7E, 0x05, 0x00] (some 5) 64).engine.buf.length ≤ 64 + 9 :=
  ⟨witness_inv_pending, fun t h => by cases h; decide, by decide⟩

theorem witness_delivered :
    deliveredBy (.wireStart 5) = some ([0x7E], 5) ∧ deliveredBy .crcRead = none ∧
      exec (.wireStart 5) fresh = .next { stateWith [0x7E] (some 5) 64 with response := .assembled [] [0x7E] } :=
  ⟨rfl, rfl, rfl⟩

/-- A run with a frame, noise and a frame that waits. -/
theorem witness_run :
    fresh.Inv ∧ (execAll [.feed (frame0 ++ [0x01]) 0, .wireStart 1, .crcRead] fresh).map (fun r => eventsOf r.2) =
      some [.frame ⟨0x00, []⟩, .error .framing] ∧
    Instr.reset ∉ [.feed (frame0 ++ [0x01]) 0, .wireStart 1, .crcRead] ∧
    Instr.sessionReset ∉ [.feed (frame0 ++ [0x01]) 0, .wireStart 1, .crcRead] :=
  ⟨witness_inv_idle, by decide⟩

theorem witness_counted :
    fresh.Inv ∧ exec (.feed frame0 0) fresh = .next { fresh with
      engine := { fresh.engine with counters := ⟨1, 9, 0, 0, 0, 0, 0⟩ }
      response := .assembled [.frame ⟨0x00, []⟩] [] } :=
  ⟨witness_inv_idle, rfl⟩

/-- An empty chunk, then the frame in two, the second exactly `cfg_timeout` later, at `cfg_max_payload = 0`, where nine
bytes and one more are allowed. -/
theorem witness_chunks :
    let s := stateWith [] none 0
    let chunks : List (Bytes × Time) := [([], 0)] ++ (frame0.take 1, 7) :: [(frame0.drop 1, 1007)]
    s.engine.Idle ∧ chunks.flatMap Prod.fst = encodeFrame 0x00 [] ∧ frame0.take 1 ≠ [] ∧
      (∀ c ∈ ([(frame0.drop 1, 1007)] : List (Bytes × Time)), (c.2 - 7).toNat ≤ s.engine.cfgTimeout.toNat) ∧
      (encodeFrame 0x00 []).length ≤ s.engine.cfgMaxPayload.toNat + 10 :=
  ⟨⟨rfl, rfl⟩, by decide⟩

theorem witness_garbage :
    fresh.engine.Idle ∧ ([0x7F] : Bytes) ≠ [] ∧ (0x7E : Byte) ∉ [0x7F] ∧
      ∀ g ∈ ([([0x7F], 0), ([0x00, 0x7D], 1)] : List (Bytes × Time)), g.1 ≠ [] ∧ 0x7E ∉ g.1 :=
  ⟨⟨rfl, rfl⟩, by decide⟩

/-- One stream whole and in three pieces. -/
theorem witness_rechunk :
    fresh.engine.Idle ∧ ([(frame0 ++ [0x7E], 0)] : List (Bytes × Time)).flatMap Prod.fst =
      ([(frame0.take 3, 0), (frame0.drop 3, 1), ([0x7E], 2)] : List (Bytes × Time)).flatMap Prod.fst ∧
    (execAll [.feed (frame0 ++ [0x7E]) 0] fresh).map (fun r => eventsOf r.2) = some [.frame ⟨0x00, []⟩] ∧
    (execAll [.feed (frame0.take 3) 0, .feed (frame0.drop 3) 1, .feed [0x7E] 2] fresh).map (fun r => eventsOf r.2) =
      some [.frame ⟨0x00, []⟩] :=
  ⟨⟨rfl, rfl⟩, by decide⟩

theorem witness_frames :
    fresh.engine.Idle ∧ (∀ f ∈ ([⟨0x00, []⟩, ⟨0x01, [0x7E]⟩] : List Frame), f.payload.length < 2 ^ 32) ∧
      (encodeFrame 0x01 [0x7E]).length ≤ fresh.engine.cfgMaxPayload.toNat + 10 :=
  ⟨⟨rfl, rfl⟩, by decide⟩

theorem witness_owners :
    exec (.crcUpdate 0x31) fresh = .next { fresh with engine := { fresh.engine with crc := 0x947E }, response := .none } := rfl

end Sys2Proof.Tests
end

namespace Sys2Proof.Machine

theorem step_of_decode_error {s : State} {r : Request} {rest : List Request} {e : DecodeError}
    (h : s.requests = r :: rest) (hd : decode r = .error e) : step s = .refused (refusalOf e) := by
  simp only [step, takeRequest_of_cons h, hd]

theorem step_of_no_request {s : State} (h : s.requests = []) : step s = .next s := by
  simp only [step, takeRequest_of_nil h]

/-- Settles O3: one law of `step` for each of its three branches. -/
theorem stepRunsDecodedInstruction : Obligations.StepRunsDecodedInstruction := by
  unfold Obligations.StepRunsDecodedInstruction
  refine ⟨?decodes, ?decodeError, ?noRequest⟩
  case decodes => exact fun _ _ _ _ h hd => step_of_decode h hd
  case decodeError => exact fun _ _ _ _ h hd => step_of_decode_error h hd
  case noRequest => exact fun _ h => step_of_no_request h

end Sys2Proof.Machine

namespace Sys2Proof.Machine

/-! Reset (O1) -/

/-- The open parameter fits its 32-bit field, since its range ends at `2^32 - 10` (R10, R31). -/
theorem reset_cfgMaxPayload_toNat : State.reset.engine.cfgMaxPayload.toNat = Config.maxPayloadSize.val :=
  Nat.mod_eq_of_lt (by have := Config.maxPayloadSize.isLt; omega)

/-- Settles O1: the fields are those of `Engine.reset`, and the parameter's range gives its two bounds. -/
theorem resetStateHasSpecValues : Obligations.ResetStateHasSpecValues := by
  unfold Obligations.ResetStateHasSpecValues
  refine ⟨rfl, reset_cfgMaxPayload_toNat, ?legal, rfl, fun s => ⟨_, rfl, rfl⟩⟩
  case legal =>
    rw [reset_cfgMaxPayload_toNat]
    exact Nat.le_of_lt_succ Config.maxPayloadSize.isLt

/-! Who writes what (O55): one law per piece of state -/

/-- A configuration write, done or refused, leaves all but the configuration. -/
theorem writeRegister_getD_keeps (e : Engine) (reg : Nat) (v : U32) :
    ((writeRegister e reg v).getD e).crc = e.crc ∧ ((writeRegister e reg v).getD e).buf = e.buf ∧
      ((writeRegister e reg v).getD e).pendingSince = e.pendingSince ∧
      ((writeRegister e reg v).getD e).counters = e.counters := by
  cases h : writeRegister e reg v with
  | none => exact ⟨rfl, rfl, rfl, rfl⟩
  | some e' => obtain ⟨_, _, rfl⟩ | ⟨_, rfl⟩ := writeRegister_some h <;> exact ⟨rfl, rfl, rfl, rfl⟩

theorem exec_keeps_requests {i : Instr} {s t : State} (h : exec i s = .next t) : t.requests = s.requests :=
  (exec_next_cases h).1

theorem exec_keeps_crc {i : Instr} {s t : State} (h : exec i s = .next t) (hinit : i ≠ .crcInit)
    (hupdate : ∀ b, i ≠ .crcUpdate b) (hreset : i ≠ .reset) : t.engine.crc = s.engine.crc := by
  obtain ⟨-, ⟨chunk, now, -, he⟩ | ⟨hi, -⟩ | ⟨-, he⟩ | ⟨-, he⟩ | ⟨reg, v, -, he⟩ | ⟨hi, -⟩ | ⟨b, hi, -⟩ | ⟨-, he⟩⟩ :=
    exec_next_cases h
  · rw [he, (assemble_keeps chunk now s.engine).1]
  · exact absurd hi hreset
  · rw [he]
  · rw [he]
  · rw [← he, (writeRegister_getD_keeps s.engine reg v).1]
  · exact absurd hi hinit
  · exact absurd hi (hupdate b)
  · rw [he]

theorem exec_keeps_buffer {i : Instr} {s t : State} (h : exec i s = .next t) (hd : deliveredBy i = none)
    (hsession : i ≠ .sessionReset) (hreset : i ≠ .reset) :
    t.engine.buf = s.engine.buf ∧ t.engine.pendingSince = s.engine.pendingSince := by
  obtain ⟨-, ⟨_, _, hi, -⟩ | ⟨hi, -⟩ | ⟨hi, -⟩ | ⟨-, he⟩ | ⟨reg, v, -, he⟩ | ⟨-, he⟩ | ⟨_, -, he⟩ | ⟨-, he⟩⟩ :=
    exec_next_cases h
  · cases hd.symm.trans hi
  · exact absurd hi hreset
  · exact absurd hi hsession
  · simp [he]
  · obtain ⟨-, hbuf, hpending, -⟩ := writeRegister_getD_keeps s.engine reg v
    exact ⟨he ▸ hbuf, he ▸ hpending⟩
  · simp [he]
  · simp [he]
  · simp [he]

theorem exec_keeps_counters {i : Instr} {s t : State} (h : exec i s = .next t) (hd : deliveredBy i = none)
    (hstat : i ≠ .statReset) (hreset : i ≠ .reset) : t.engine.counters = s.engine.counters := by
  obtain ⟨-, ⟨_, _, hi, -⟩ | ⟨hi, -⟩ | ⟨-, he⟩ | ⟨hi, -⟩ | ⟨reg, v, -, he⟩ | ⟨-, he⟩ | ⟨_, -, he⟩ | ⟨-, he⟩⟩ :=
    exec_next_cases h
  · cases hd.symm.trans hi
  · exact absurd hi hreset
  · rw [he]
  · exact absurd hi hstat
  · obtain ⟨-, -, -, hcounters⟩ := writeRegister_getD_keeps s.engine reg v
    rw [← he, hcounters]
  · rw [he]
  · rw [he]
  · rw [he]

theorem exec_keeps_config {i : Instr} {s t : State} (h : exec i s = .next t) (hwrite : ∀ reg v, i ≠ .cfgWrite reg v)
    (hreset : i ≠ .reset) :
    t.engine.cfgMaxPayload = s.engine.cfgMaxPayload ∧ t.engine.cfgTimeout = s.engine.cfgTimeout := by
  obtain ⟨-, ⟨chunk, now, -, he⟩ | ⟨hi, -⟩ | ⟨-, he⟩ | ⟨-, he⟩ | ⟨reg, v, hi, -⟩ | ⟨-, he⟩ | ⟨_, -, he⟩ | ⟨-, he⟩⟩ :=
    exec_next_cases h
  · rw [he]; exact (assemble_keeps chunk now s.engine).2
  · exact absurd hi hreset
  · simp [he]
  · simp [he]
  · exact absurd hi (hwrite reg v)
  · simp [he]
  · simp [he]
  · simp [he]

/-- Settles O55: one law per piece of state, each read off what an instruction can do (`exec_next_cases`). -/
theorem stateWrittenByOwnersOnly : Obligations.StateWrittenByOwnersOnly := by
  unfold Obligations.StateWrittenByOwnersOnly
  exact fun i s t h => ⟨exec_keeps_requests h, exec_keeps_crc h, exec_keeps_buffer h, exec_keeps_counters h,
    exec_keeps_config h⟩

/-! Idle or Pending, kept by every step (O45) -/

/-- A timestamp stands only beside a `START` at the front: what the scan loop needs of the engine it starts on. -/
def Engine.Anchored (e : Engine) : Prop := e.pendingSince = none ∨ ∃ b, e.buf = Config.startByte :: b

theorem Engine.Anchored.append {e : Engine} (h : e.Anchored) (chunk : Bytes) : (e.append chunk).Anchored := by
  obtain h | ⟨b, h⟩ := h
  · exact .inl h
  · exact .inr ⟨b ++ chunk, by simp [h]⟩

theorem Engine.Anchored.pendingSince_eq_none {e : Engine} (h : e.Anchored)
    (hb : ∀ b, e.buf ≠ Config.startByte :: b) : e.pendingSince = none := by
  obtain h | ⟨b, h⟩ := h
  · exact h
  · exact absurd h (hb b)

theorem Engine.Pending.exists_buf_eq {e : Engine} (h : e.Pending) : ∃ b, e.buf = Config.startByte :: b :=
  List.head?_eq_some_iff.mp h.1

theorem anchored_of_idle_or_pending {e : Engine} (h : e.Idle ∨ e.Pending) : e.Anchored := by
  obtain ⟨-, h⟩ | h := h
  · exact .inl h
  · exact .inr h.exists_buf_eq

/-- Idle and Pending speak of `buf` and `pending_since` alone. -/
theorem idle_or_pending_congr {e e' : Engine} (hbuf : e'.buf = e.buf) (hpending : e'.pendingSince = e.pendingSince) :
    e'.Idle ∨ e'.Pending ↔ e.Idle ∨ e.Pending := by
  simp only [Engine.Idle, Engine.Pending, hbuf, hpending]

/-- A pending frame that waits is Pending: it has a timestamp, and no END was found. -/
theorem pending_wait {e : Engine} {b : Bytes} (h : e.buf = Config.startByte :: b) (hw : e.waits) (now : Time) :
    (e.wait now).Pending := by
  refine ⟨by simp [h], rfl, ?_⟩
  obtain hshort | ⟨hnone, -⟩ := hw
  · exact .inl hshort
  · exact .inr hnone

/-- The scan loop ends Idle or Pending (R177, R182). -/
theorem settle_idle_or_pending {now : Time} {e : Engine} (h : e.Anchored) :
    (settle now e).engine.Idle ∨ (settle now e).engine.Pending := by
  revert h
  refine settle_induction (now := now) (P := fun e e' _ => e.Anchored → e'.Idle ∨ e'.Pending)
    ?idle ?noise ?skip ?wait ?tooLong ?accept ?reject e
  case idle => exact fun e hb h => .inl ⟨hb, h.pendingSince_eq_none (by simp [hb])⟩
  case noise =>
    exact fun e _ hs h => .inl ⟨rfl, h.pendingSince_eq_none fun b hb => hs (by simp [hb])⟩
  case skip => exact fun e a b e' _ _ _ _ ih _ => ih (.inr ⟨b, rfl⟩)
  case wait => exact fun e b hb hw _ => .inr (pending_wait hb hw now)
  case tooLong => exact fun e b _ _ _ _ _ => .inl ⟨rfl, rfl⟩
  case accept => exact fun e b i f e' _ _ _ _ ih _ => ih (.inl rfl)
  case reject => exact fun e b i k e' _ _ _ _ ih _ => ih (.inl rfl)

theorem assemble_idle_or_pending {e : Engine} (h : e.Anchored) (chunk : Bytes) (now : Time) :
    (assemble chunk now e).engine.Idle ∨ (assemble chunk now e).engine.Pending := by
  cases hx : expired now e with
  | true =>
    rw [assemble_expired hx]
    exact settle_idle_or_pending (Engine.Anchored.append (.inl rfl) chunk)
  | false =>
    rw [assemble_live hx]
    exact settle_idle_or_pending (h.append chunk)

theorem exec_keeps_idle_or_pending {i : Instr} {s t : State} (h : exec i s = .next t)
    (hs : s.engine.Idle ∨ s.engine.Pending) : t.engine.Idle ∨ t.engine.Pending := by
  by_cases hr : i = .reset
  · subst hr; cases h; exact .inl ⟨rfl, rfl⟩
  by_cases hsr : i = .sessionReset
  · subst hsr; cases h; exact .inl ⟨rfl, rfl⟩
  cases hd : deliveredBy i with
  | none =>
    obtain ⟨hbuf, hpending⟩ := exec_keeps_buffer h hd hsr hr
    exact (idle_or_pending_congr hbuf hpending).mpr hs
  | some delivery =>
    rw [exec_of_deliveredBy hd, deliver_eq] at h
    cases h
    exact assemble_idle_or_pending (anchored_of_idle_or_pending hs) _ _

theorem step_keeps_idle_or_pending {s t : State} (h : step s = .next t) (hs : s.engine.Idle ∨ s.engine.Pending) :
    t.engine.Idle ∨ t.engine.Pending := by
  obtain ⟨-, rfl⟩ | ⟨r, rest, i, -, -, hi⟩ := step_next_cases h
  · exact hs
  · exact exec_keeps_idle_or_pending hi hs

/-- In both states of R177 the two status bits agree. -/
theorem bufNonempty_eq_pending {e : Engine} (h : e.Idle ∨ e.Pending) : e.bufNonempty = e.pending := by
  obtain ⟨hbuf, hpending⟩ | h := h
  · simp [Engine.bufNonempty, Engine.pending, hbuf, hpending]
  · obtain ⟨b, hbuf⟩ := h.exists_buf_eq
    obtain ⟨-, hpending, -⟩ := h
    simp [Engine.bufNonempty, Engine.pending, hbuf, hpending]

/-- Settles O45: a step keeps the assembler Idle or Pending, and in both the bits agree. -/
theorem statusBitsAgree : Obligations.StatusBitsAgree := by
  unfold Obligations.StatusBitsAgree
  exact fun s t hs h => bufNonempty_eq_pending (step_keeps_idle_or_pending h hs.1)

/-! Saturating counters -/

theorem satInc_toNat (c : U32) (k : Nat) : (satInc c k).toNat = min (c.toNat + k) (2 ^ 32 - 1) :=
  Nat.mod_eq_of_lt (by simp only [Config.counterMax]; omega)

@[simp] theorem satInc_zero (c : U32) : satInc c 0 = c := by
  apply BitVec.eq_of_toNat_eq
  rw [satInc_toNat]
  omega

/-- Saturating steps add up. -/
@[simp] theorem satInc_satInc (c : U32) (j k : Nat) : satInc (satInc c j) k = satInc c (j + k) := by
  apply BitVec.eq_of_toNat_eq
  simp only [satInc_toNat]
  omega

theorem le_satInc (c : U32) (k : Nat) : c.toNat ≤ (satInc c k).toNat := by
  rw [satInc_toNat]
  omega

/-- The counter of an error kind (R220's column "counter"); the three kinds out of scope have none. -/
def Counters.ofKind (c : Counters) : ErrorKind → U32
  | .framing => c.framingErrors
  | .crc => c.crcErrors
  | .escapeSequence => c.escapeErrors
  | .bufferOverflow => c.overflowErrors
  | .timeout => c.timeoutErrors
  | .parse | .unknownMessageType | .transport => 0

@[simp] theorem Counters.countError_messagesReceived (c : Counters) (k : ErrorKind) :
    (c.countError k).messagesReceived = c.messagesReceived := by cases k <;> rfl
@[simp] theorem Counters.countError_bytesReceived (c : Counters) (k : ErrorKind) :
    (c.countError k).bytesReceived = c.bytesReceived := by cases k <;> rfl
@[simp] theorem Counters.countFrame_messagesReceived (c : Counters) (n : Nat) :
    (c.countFrame n).messagesReceived = satInc c.messagesReceived 1 := rfl
@[simp] theorem Counters.countFrame_bytesReceived (c : Counters) (n : Nat) :
    (c.countFrame n).bytesReceived = satInc c.bytesReceived n := rfl
@[simp] theorem Counters.countFrame_ofKind (c : Counters) (n : Nat) (k : ErrorKind) :
    (c.countFrame n).ofKind k = c.ofKind k := by cases k <;> rfl

theorem Counters.countError_ofKind_same (c : Counters) {k : ErrorKind} (h : k.raised = true) :
    (c.countError k).ofKind k = satInc (c.ofKind k) 1 := by
  cases k
  case parse | unknownMessageType | transport => cases h
  all_goals rfl

theorem Counters.countError_ofKind_ne (c : Counters) {j k : ErrorKind} (h : j ≠ k) :
    (c.countError j).ofKind k = c.ofKind k := by
  cases j <;> cases k
  case framing.framing | crc.crc | escapeSequence.escapeSequence | bufferOverflow.bufferOverflow | timeout.timeout
      | parse.parse | unknownMessageType.unknownMessageType | transport.transport => exact absurd rfl h
  all_goals rfl

/-! What a delivery does to the received bytes, the events and the counters, by segments (R59) -/

/-- What the engine counts for one segment: its event's counter, and its bytes if they were a frame. -/
def Counters.countSegment (c : Counters) (g : Segment) : Counters :=
  match g.event with
  | .frame _ => c.countFrame g.received
  | .error k => c.countError k

/-- The bytes of `e` became the segments, reported by `out` and counted one by one, and what waits in `e'`. -/
structure Accounts (segs : List Segment) (e e' : Engine) (out : List Event) : Prop where
  bytes : e.buf = segs.flatMap Segment.bytes ++ e'.buf
  events : out = segs.map Segment.event
  counters : e'.counters = segs.foldl Counters.countSegment e.counters

theorem Accounts.nil {e e' : Engine} (hbuf : e.buf = e'.buf) (hcounters : e'.counters = e.counters) :
    Accounts [] e e' [] := ⟨hbuf, rfl, hcounters⟩

/-- One segment taken off the front, then the others. -/
theorem Accounts.cons {g : Segment} {segs : List Segment} {e e₁ e' : Engine} {out : List Event}
    (h : Accounts segs e₁ e' out) (hbuf : e.buf = g.bytes ++ e₁.buf)
    (hcounters : e₁.counters = e.counters.countSegment g) : Accounts (g :: segs) e e' (g.event :: out) where
  bytes := by rw [hbuf, h.bytes, List.flatMap_cons, List.append_assoc]
  events := by rw [h.events, List.map_cons]
  counters := by rw [h.counters, hcounters, List.foldl_cons]

/-- The bytes `drop_to_next_start()` drops behind `buf[0]` hold no `START`. -/
theorem startByte_not_mem_takeWhile (s : Bytes) : Config.startByte ∉ s.takeWhile (· != Config.startByte) :=
  fun h => by simpa using List.mem_takeWhile_imp h

/-- R59 for the scan loop: one segment per rule that removes bytes. -/
theorem settle_accounts (now : Time) (e : Engine) :
    ∃ segs, Accounts segs e (settle now e).engine (settle now e).out ∧ ∀ g ∈ segs, g.Valid := by
  refine settle_induction (now := now) (P := fun e e' out => ∃ segs, Accounts segs e e' out ∧ ∀ g ∈ segs, g.Valid)
    ?idle ?noise ?skip ?wait ?tooLong ?accept ?reject e
  case idle => exact fun e _ => ⟨[], .nil rfl rfl, by simp⟩
  case noise =>
    intro e hne hs
    exact ⟨[.noise e.buf], (Accounts.nil rfl rfl).cons (by simp [Segment.bytes]) rfl,
      List.forall_mem_singleton.mpr ⟨hne, hs⟩⟩
  case skip =>
    rintro e a b e' out hb ha hs ⟨segs, h, hv⟩
    exact ⟨.noise a :: segs, h.cons hb rfl, List.forall_mem_cons.mpr ⟨⟨ha, hs⟩, hv⟩⟩
  case wait => exact fun e b _ _ => ⟨[], .nil rfl rfl, by simp⟩
  case tooLong =>
    intro e b hb _ _ _
    exact ⟨[.overflow e.buf], (Accounts.nil rfl rfl).cons (by simp [Segment.bytes]) rfl,
      List.forall_mem_singleton.mpr (by rw [Segment.Valid, hb]; rfl)⟩
  case accept =>
    rintro e b i f e' out hb hi hd ⟨segs, h, hv⟩
    have hlen : (e.buf.take (i + 1)).length = i + 1 := by
      obtain ⟨_, _, _, he, hl, rfl, -, -⟩ := endScan_some hi
      simp [he, hl]
    refine ⟨.frame (e.buf.take (i + 1)) f :: segs, h.cons (List.take_append_drop _ _).symm ?_,
      List.forall_mem_cons.mpr ⟨hd, hv⟩⟩
    simp only [Counters.countSegment, Segment.event, Segment.received, hlen]
  case reject =>
    rintro e b i k e' out hb hi hd ⟨segs, h, hv⟩
    refine ⟨.resync (Config.startByte :: b.takeWhile (· != Config.startByte)) k :: segs, h.cons ?_ rfl,
      List.forall_mem_cons.mpr ⟨⟨decodeFrame_slice_err hb hi hd, rfl, startByte_not_mem_takeWhile b⟩, hv⟩⟩
    simp [Segment.bytes, hb, takeWhile_append_toStart]

/-- The bytes an expiry drops (R161, R167): `buf[0]` and those to the next `START`. -/
def Engine.expiredBytes (e : Engine) : Bytes := e.buf.take 1 ++ e.buf.tail.takeWhile (· != Config.startByte)

theorem Engine.buf_eq_expiredBytes_append (e : Engine) : e.buf = e.expiredBytes ++ e.timedOut.buf := by
  simp only [Engine.expiredBytes, Engine.timedOut, List.append_assoc, takeWhile_append_toStart]
  cases e.buf <;> rfl

/-- Only a buffer with a timestamp expires, so with the anchor its first byte is a `START`. -/
theorem valid_timeout_expiredBytes {now : Time} {e : Engine} (hx : expired now e = true) (h : e.Anchored) :
    (Segment.timeout e.expiredBytes).Valid := by
  obtain h | ⟨b, h⟩ := h
  · rw [expired_of_none h] at hx; cases hx
  · simp only [Segment.Valid, Engine.expiredBytes, h]
    exact ⟨rfl, startByte_not_mem_takeWhile b⟩

/-- R59 for one delivery, from any state; the segments are valid where the invariant's anchor holds. -/
theorem assemble_accounts (chunk : Bytes) (now : Time) (e : Engine) :
    ∃ segs, Accounts segs (e.append chunk) (assemble chunk now e).engine (assemble chunk now e).out ∧
      (e.Anchored → ∀ g ∈ segs, g.Valid) := by
  cases hx : expired now e with
  | false =>
    obtain ⟨segs, h, hv⟩ := settle_accounts now (e.append chunk)
    rw [assemble_live hx]
    exact ⟨segs, h, fun _ => hv⟩
  | true =>
    obtain ⟨segs, h, hv⟩ := settle_accounts now (e.timedOut.append chunk)
    rw [assemble_expired hx]
    refine ⟨.timeout e.expiredBytes :: segs, h.cons ?_ rfl,
      fun ha => List.forall_mem_cons.mpr ⟨valid_timeout_expiredBytes hx ha, hv⟩⟩
    rw [Engine.append_buf, Engine.append_buf, Segment.bytes, ← List.append_assoc, ← e.buf_eq_expiredBytes_append]

/-! Each counter after the segments (O48, O56) -/

/-- A counter that rises by a segment's share at each segment has risen by the sum. -/
theorem foldl_countSegment_eq_satInc {read : Counters → U32} {share : Segment → Nat}
    (h : ∀ c g, read (c.countSegment g) = satInc (read c) (share g)) (segs : List Segment) (c : Counters) :
    read (segs.foldl Counters.countSegment c) = satInc (read c) (segs.map share).sum := by
  induction segs generalizing c with
  | nil => simp
  | cons g segs ih => simp [ih, h]

theorem framesOf_cons (v : Event) (out : List Event) :
    (framesOf (v :: out)).length = (framesOf [v]).length + (framesOf out).length := by
  rw [← List.length_append, framesOf, framesOf, framesOf, ← List.filterMap_append, List.singleton_append]

theorem errorCount_cons (k : ErrorKind) (v : Event) (out : List Event) :
    errorCount k (v :: out) = errorCount k [v] + errorCount k out := by
  rw [errorCount, errorCount, errorCount, ← List.count_append, List.singleton_append]

theorem framesOf_length_eq_sum (segs : List Segment) :
    (framesOf (segs.map Segment.event)).length = (segs.map fun g => (framesOf [g.event]).length).sum := by
  induction segs with
  | nil => rfl
  | cons g segs ih => rw [List.map_cons, framesOf_cons, ih, List.map_cons, List.sum_cons]

theorem errorCount_eq_sum (k : ErrorKind) (segs : List Segment) :
    errorCount k (segs.map Segment.event) = (segs.map fun g => errorCount k [g.event]).sum := by
  induction segs with
  | nil => rfl
  | cons g segs ih => rw [List.map_cons, errorCount_cons, ih, List.map_cons, List.sum_cons]

theorem countSegment_messagesReceived (c : Counters) (g : Segment) :
    (c.countSegment g).messagesReceived = satInc c.messagesReceived (framesOf [g.event]).length := by
  unfold Counters.countSegment
  cases g.event <;> simp [framesOf]

theorem countSegment_bytesReceived (c : Counters) (g : Segment) :
    (c.countSegment g).bytesReceived = satInc c.bytesReceived g.received := by
  cases g <;> simp [Counters.countSegment, Segment.event, Segment.received]

theorem countSegment_ofKind {k : ErrorKind} (hk : k.raised = true) (c : Counters) (g : Segment) :
    (c.countSegment g).ofKind k = satInc (c.ofKind k) (errorCount k [g.event]) := by
  unfold Counters.countSegment
  cases g.event with
  | frame f => simp [errorCount]
  | error j =>
    by_cases h : j = k
    · subst h; simp [errorCount, Counters.countError_ofKind_same c hk]
    · simp [errorCount, Counters.countError_ofKind_ne c h, h]

section
variable {segs : List Segment} {e e' : Engine} {out : List Event} (h : Accounts segs e e' out)
include h

theorem Accounts.messagesReceived :
    e'.counters.messagesReceived = satInc e.counters.messagesReceived (framesOf out).length := by
  rw [h.counters, h.events, framesOf_length_eq_sum, foldl_countSegment_eq_satInc countSegment_messagesReceived]

theorem Accounts.bytesReceived :
    e'.counters.bytesReceived = satInc e.counters.bytesReceived (segs.map Segment.received).sum := by
  rw [h.counters, foldl_countSegment_eq_satInc countSegment_bytesReceived]

theorem Accounts.ofKind {k : ErrorKind} (hk : k.raised = true) :
    e'.counters.ofKind k = satInc (e.counters.ofKind k) (errorCount k out) := by
  rw [h.counters, h.events, errorCount_eq_sum,
    foldl_countSegment_eq_satInc (read := (Counters.ofKind · k)) (countSegment_ofKind hk)]

end

/-- Settles O48: the segments of the delivery (`assemble_accounts`) give the exact rise of every counter. -/
theorem countersCountEvents : Obligations.CountersCountEvents := by
  unfold Obligations.CountersCountEvents
  intro chunk now s t out hs hexec hout rises
  rw [exec_of_deliveredBy (i := .feed chunk now) rfl, deliver_eq] at hexec
  cases hexec
  cases hout
  obtain ⟨segs, h, hv⟩ := assemble_accounts chunk now s.engine
  have rises_of_eq {before after : U32} {k : Nat} (ha : after = satInc before k) : rises before after k :=
    ha ▸ satInc_toNat before k
  exact ⟨rises_of_eq h.messagesReceived, rises_of_eq (h.ofKind (k := .framing) rfl),
    rises_of_eq (h.ofKind (k := .crc) rfl), rises_of_eq (h.ofKind (k := .escapeSequence) rfl),
    rises_of_eq (h.ofKind (k := .bufferOverflow) rfl), rises_of_eq (h.ofKind (k := .timeout) rfl),
    segs, h.bytes, h.events, hv (anchored_of_idle_or_pending hs.1), rises_of_eq h.bytesReceived⟩

/-- No counter of `c` is larger than that of `c'`. -/
structure Counters.Le (c c' : Counters) : Prop where
  messagesReceived : c.messagesReceived.toNat ≤ c'.messagesReceived.toNat
  bytesReceived : c.bytesReceived.toNat ≤ c'.bytesReceived.toNat
  ofKind (k : ErrorKind) (hk : k.raised = true) : (c.ofKind k).toNat ≤ (c'.ofKind k).toNat

theorem Counters.Le.refl (c : Counters) : c.Le c :=
  ⟨Nat.le_refl _, Nat.le_refl _, fun _ _ => Nat.le_refl _⟩

theorem Accounts.counters_le {segs : List Segment} {e e' : Engine} {out : List Event} (h : Accounts segs e e' out) :
    e.counters.Le e'.counters where
  messagesReceived := h.messagesReceived ▸ le_satInc _ _
  bytesReceived := h.bytesReceived ▸ le_satInc _ _
  ofKind _ hk := h.ofKind hk ▸ le_satInc _ _

theorem exec_counters_le {i : Instr} {s t : State} (h : exec i s = .next t) (hreset : i ≠ .reset)
    (hstat : i ≠ .statReset) : s.engine.counters.Le t.engine.counters := by
  cases hd : deliveredBy i with
  | none => exact exec_keeps_counters h hd hstat hreset ▸ .refl _
  | some delivery =>
    rw [exec_of_deliveredBy hd, deliver_eq] at h
    cases h
    obtain ⟨segs, h, -⟩ := assemble_accounts delivery.1 delivery.2 s.engine
    exact h.counters_le

/-- Settles O56: a delivery only counts segments, and the instructions that deliver nothing leave the counters. -/
theorem countersNeverDecrease : Obligations.CountersNeverDecrease := by
  unfold Obligations.CountersNeverDecrease
  intro i s t h hreset hstat
  obtain ⟨hmessages, hbytes, hkind⟩ := exec_counters_le h hreset hstat
  exact ⟨hmessages, hbytes, hkind .framing rfl, hkind .crc rfl, hkind .escapeSequence rfl, hkind .bufferOverflow rfl,
    hkind .timeout rfl⟩

end Sys2Proof.Machine

namespace Sys2Proof.Machine

/-! The bound on the buffer (O44) -/

theorem Engine.overBound_eq_false_iff {e : Engine} :
    e.overBound = false ↔ e.buf.length ≤ e.cfgMaxPayload.toNat + Config.overhead := by
  simp [Engine.overBound]

/-- A buffer too short for a header is within every bound: the bound is at least 9. -/
theorem Engine.waits.overBound_eq_false {e : Engine} (h : e.waits) : e.overBound = false := by
  obtain hshort | ⟨-, hbound⟩ := h
  · rw [Engine.overBound_eq_false_iff]
    simp only [Config.headerLen, Config.overhead] at hshort ⊢
    omega
  · exact hbound

/-- The scan loop stops only on an empty buffer or on a frame that waits, so it ends within the bound (R57, R172). -/
theorem settle_within_bound (now : Time) (e : Engine) : (settle now e).engine.overBound = false := by
  refine settle_induction (now := now) (P := fun _ e' _ => e'.overBound = false)
    ?idle ?noise ?skip ?wait ?tooLong ?accept ?reject e
  case idle => exact fun e hb => Engine.overBound_eq_false_iff.mpr (by simp [hb])
  case noise | tooLong => intros; exact Engine.overBound_eq_false_iff.mpr (Nat.zero_le _)
  case wait => exact fun e b _ hw => hw.overBound_eq_false
  case skip => exact fun e a b e' _ _ _ _ ih => ih
  case accept => exact fun e b i f e' _ _ _ _ ih => ih
  case reject => exact fun e b i k e' _ _ _ _ ih => ih

theorem assemble_within_bound (chunk : Bytes) (now : Time) (e : Engine) :
    (assemble chunk now e).engine.overBound = false := by
  cases hx : expired now e with
  | true => rw [assemble_expired hx]; exact settle_within_bound now _
  | false => rw [assemble_live hx]; exact settle_within_bound now _

/-- Settles O44: every delivery ends with the scan loop, and that ends within the bound (`settle_within_bound`). -/
theorem bufferWithinBound : Obligations.BufferWithinBound := by
  unfold Obligations.BufferWithinBound
  intro i chunk now s t hd h
  rw [exec_of_deliveredBy hd, deliver_eq] at h
  cases h
  exact Engine.overBound_eq_false_iff.mp (assemble_within_bound chunk now s.engine)

/-! Runs of several instructions -/

/-- A run that begins with `i` is `i`, then the run of the others. -/
theorem execAll_cons_eq_some {i : Instr} {is : List Instr} {s t : State} {rs : List Response}
    (h : execAll (i :: is) s = some (t, rs)) :
    ∃ u rs', exec i s = .next u ∧ execAll is u = some (t, rs') ∧ rs = u.response :: rs' := by
  rw [execAll] at h
  split at h
  · rename_i u hu
    obtain ⟨⟨t', rs'⟩, hrest, heq⟩ := Option.map_eq_some_iff.mp h
    cases heq
    exact ⟨u, rs', hu, hrest, rfl⟩
  · cases h
  · cases h

theorem fedBy_cons (i : Instr) (is : List Instr) : fedBy (i :: is) = fedBy [i] ++ fedBy is :=
  List.flatMap_append (xs := [i])

theorem eventsOf_cons (r : Response) (rs : List Response) : eventsOf (r :: rs) = eventsOf [r] ++ eventsOf rs :=
  List.flatMap_append (xs := [r])

theorem fedBy_singleton_of_delivers {i : Instr} {chunk : Bytes} {now : Time} (h : deliveredBy i = some (chunk, now)) :
    fedBy [i] = chunk := by
  simp [fedBy, h]

theorem fedBy_singleton_of_not_delivers {i : Instr} (h : deliveredBy i = none) : fedBy [i] = [] := by
  simp [fedBy, h]

theorem eventsOf_assembled (out : List Event) (rest : Bytes) : eventsOf [.assembled out rest] = out := by
  simp [eventsOf]

/-- Only a delivery reports events. -/
theorem exec_eventsOf_response {i : Instr} {s t : State} (h : exec i s = .next t) (hd : deliveredBy i = none) :
    eventsOf [t.response] = [] := by
  cases i <;> simp only [deliveredBy, reduceCtorEq] at hd
  case cfgWrite reg v =>
    simp only [exec, execCfgWrite] at h
    cases hw : writeRegister s.engine reg v <;> rw [hw] at h <;> cases h <;> rfl
  case regRead reg =>
    simp only [exec, execRegRead] at h
    cases hr : registerOf reg <;> rw [hr] at h <;> cases h <;> rfl
  case encode m p =>
    simp only [exec, execEncode] at h
    split at h
    · cases h; rfl
    · cases h
  all_goals (cases h; rfl)

/-! R59 along a run (O47) -/

/-- The bytes `received` became the valid segments that `out` reports, and the bytes `left` that wait. -/
structure Conserves (segs : List Segment) (received : Bytes) (out : List Event) (left : Bytes) : Prop where
  bytes : received = segs.flatMap Segment.bytes ++ left
  events : out = segs.map Segment.event
  valid : ∀ g ∈ segs, g.Valid

theorem Conserves.nil (b : Bytes) : Conserves [] b [] b := ⟨rfl, rfl, by simp⟩

/-- What waits after the first part is what the second part starts on. -/
theorem Conserves.append {segs segs' : List Segment} {received more mid left : Bytes} {out out' : List Event}
    (h : Conserves segs received out mid) (h' : Conserves segs' (mid ++ more) out' left) :
    Conserves (segs ++ segs') (received ++ more) (out ++ out') left where
  bytes := by rw [h.bytes, List.append_assoc, h'.bytes, List.flatMap_append, List.append_assoc]
  events := by rw [h.events, h'.events, List.map_append]
  valid := List.forall_mem_append.mpr ⟨h.valid, h'.valid⟩

theorem exec_conserves {i : Instr} {s t : State} (h : exec i s = .next t) (hs : s.engine.Anchored) (hreset : i ≠ .reset)
    (hsession : i ≠ .sessionReset) :
    ∃ segs, Conserves segs (s.engine.buf ++ fedBy [i]) (eventsOf [t.response]) t.engine.buf := by
  cases hd : deliveredBy i with
  | none =>
    obtain ⟨hbuf, -⟩ := exec_keeps_buffer h hd hsession hreset
    rw [fedBy_singleton_of_not_delivers hd, exec_eventsOf_response h hd, hbuf, List.append_nil]
    exact ⟨[], .nil _⟩
  | some delivery =>
    obtain ⟨chunk, now⟩ := delivery
    rw [exec_of_deliveredBy hd, deliver_eq] at h
    cases h
    obtain ⟨segs, ha, hv⟩ := assemble_accounts chunk now s.engine
    rw [fedBy_singleton_of_delivers hd, eventsOf_assembled]
    exact ⟨segs, ha.bytes, ha.events, hv hs⟩

/-- Induction along the run: each instruction conserves the bytes and leaves the next one an Idle or Pending assembler. -/
theorem execAll_conserves {is : List Instr} {s t : State} {rs : List Response} (h : execAll is s = some (t, rs))
    (hs : s.engine.Idle ∨ s.engine.Pending) (hreset : .reset ∉ is) (hsession : .sessionReset ∉ is) :
    ∃ segs, Conserves segs (s.engine.buf ++ fedBy is) (eventsOf rs) t.engine.buf := by
  induction is generalizing s rs with
  | nil =>
    cases h
    exact ⟨[], by simpa [fedBy, eventsOf] using Conserves.nil _⟩
  | cons i is ih =>
    obtain ⟨u, rs', hi, his, rfl⟩ := execAll_cons_eq_some h
    obtain ⟨segs, hc⟩ := exec_conserves hi (anchored_of_idle_or_pending hs) (List.ne_of_not_mem_cons hreset).symm
      (List.ne_of_not_mem_cons hsession).symm
    obtain ⟨segs', hc'⟩ := ih his (exec_keeps_idle_or_pending hi hs) (List.not_mem_of_not_mem_cons hreset)
      (List.not_mem_of_not_mem_cons hsession)
    rw [fedBy_cons, eventsOf_cons, ← List.append_assoc]
    exact ⟨segs ++ segs', hc.append hc'⟩

/-- Settles O47: the segments of the deliveries, one after another (`execAll_conserves`). -/
theorem receivedBytesConserved : Obligations.ReceivedBytesConserved := by
  unfold Obligations.ReceivedBytesConserved
  intro is s t rs ⟨hs, _, _⟩ hreset hsession h
  obtain ⟨segs, hc⟩ := execAll_conserves h hs hreset hsession
  exact ⟨segs, hc.bytes, hc.events, hc.valid⟩

end Sys2Proof.Machine

namespace Sys2Proof

/-! The decoder undoes the encoder, and the encoder the decoder (O6) -/

/-- Only three encodings do more than put the operands in their places: the two catch-all rows, which `wf` keeps off the
special rows, and the header, whose words are split into bytes. -/
theorem decode_encode {i : Instr} (h : i.wf = true) : decode (encode i) = .ok i := by
  cases i
  case wireData value now => exact Laws.RoundTrip.wireData value now h
  case pairAny x now => exact Laws.RoundTrip.pairAny x now h
  case frameHeader length crc type now => exact Laws.RoundTrip.frameHeader length crc type now h
  all_goals rfl

/-- The number of an operation, R82's table read from right to left. -/
def numberOf : OpName → Byte
  | .reset => 0x00
  | .sessionReset => 0x01
  | .statReset => 0x02
  | .cfgWrite => 0x03
  | .regRead => 0x04
  | .crcInit => 0x10
  | .crcUpdate => 0x11
  | .crcRead => 0x12
  | .crcCalc => 0x13
  | .escape => 0x20
  | .encode => 0x21
  | .unescape => 0x30
  | .decode => 0x31
  | .diag => 0x32
  | .feed => 0x40
  | .tick => 0x41

/-- No two numbers of the table name one operation. -/
theorem eq_numberOf {number : Byte} {name : OpName} (h : operationOf number = some name) : number = numberOf name := by
  have table : ∀ row ∈ operationTable, row.1 = numberOf row.2 := by decide
  obtain ⟨before, rest, hsplit, -⟩ := List.lookup_eq_some_iff.mp h
  exact table (number, name) (by simp [hsplit])

theorem encode_of_withOperands {name : OpName} {operands : List Operand} {i : Instr}
    (h : withOperands name operands = some i) : i.wf = true ∧ encode i = .op (numberOf name) operands := by
  unfold withOperands at h
  split at h <;> cases h <;> exact ⟨rfl, rfl⟩

/-- `WIRE.DATA` is any byte but the three markers (R75). -/
theorem wf_wireData_iff (b : Byte) (now : Time) : (Instr.wireData b now).wf = true ↔ b ≠ 0x7E ∧ b ≠ 0x7F ∧ b ≠ 0x7D := by
  simp [Instr.wf, reservedBytes, Config.startByte, Config.endByte, Config.escByte]

/-- `PAIR.ANY` is any pair but the three canonical ones (R76, R77). -/
theorem wf_pairAny_iff (x : Byte) (now : Time) : (Instr.pairAny x now).wf = true ↔ x ≠ 0x5E ∧ x ≠ 0x5F ∧ x ≠ 0x5D := by
  simp [Instr.wf, canonicalSeconds]

theorem encode_instrOfWireByte (b : Byte) (now : Time) :
    (instrOfWireByte b now).wf = true ∧ encode (instrOfWireByte b now) = .wire .wireByte [b] now := by
  unfold instrOfWireByte
  split_ifs with hstart hend hesc
  · exact ⟨rfl, hstart ▸ rfl⟩
  · exact ⟨rfl, hend ▸ rfl⟩
  · exact ⟨rfl, hesc ▸ rfl⟩
  · exact ⟨(wf_wireData_iff b now).mpr ⟨hstart, hend, hesc⟩, rfl⟩

theorem encode_instrOfPair (x : Byte) (now : Time) :
    (instrOfPair x now).wf = true ∧ encode (instrOfPair x now) = .wire .escapePair [Config.escByte, x] now := by
  unfold instrOfPair
  split_ifs with hstart hend hesc
  · exact ⟨rfl, hstart ▸ rfl⟩
  · exact ⟨rfl, hend ▸ rfl⟩
  · exact ⟨rfl, hesc ▸ rfl⟩
  · exact ⟨(wf_pairAny_iff x now).mpr ⟨hstart, hend, hesc⟩, rfl⟩

/-- Received bytes that fit a format are the encoding of what they are read as. -/
theorem encode_of_instrOfWire {form : WireForm} {bytes : Bytes} {now : Time} {i : Instr}
    (h : instrOfWire form bytes now = some i) : i.wf = true ∧ encode i = .wire form bytes now := by
  unfold instrOfWire at h
  split at h
  case h_1 => cases h; exact encode_instrOfWireByte _ _
  case h_2 =>
    split_ifs at h with he
    cases h
    exact he ▸ encode_instrOfPair _ _
  case h_3 =>
    split_ifs at h with hm
    cases h
    exact ⟨rfl, by rw [encode, bytesLe32_append, bytesLe16_append, hm]; rfl⟩
  case h_4 => cases h; exact ⟨rfl, rfl⟩
  case h_5 =>
    split_ifs at h with hm
    cases h
    exact ⟨rfl, hm ▸ rfl⟩
  case h_6 => cases h

/-- A request that decodes is the encoding of what it decodes to. -/
theorem encode_of_decode {r : Request} {i : Instr} (h : decode r = .ok i) : i.wf = true ∧ encode i = r := by
  unfold decode at h
  cases r with
  | op number operands =>
    cases hname : operationOf number with
    | none => simp [hname] at h
    | some name =>
      cases hops : withOperands name operands with
      | none => simp [hname, hops] at h
      | some j =>
        simp only [hname, hops, Except.ok.injEq] at h
        subst h
        exact eq_numberOf hname ▸ encode_of_withOperands hops
  | wire form bytes now =>
    cases hwire : instrOfWire form bytes now with
    | none => simp [hwire] at h
    | some j =>
      simp only [hwire, Except.ok.injEq] at h
      subst h
      exact encode_of_instrOfWire hwire

/-- Settles O6: `encode_of_decode` in one direction, `decode_encode` in the other. -/
theorem decodeEncodeAgree : Obligations.DecodeEncodeAgree := by
  unfold Obligations.DecodeEncodeAgree
  exact fun r i => ⟨encode_of_decode, fun ⟨hwf, hr⟩ => hr ▸ decode_encode hwf⟩

/-! Operation numbers, table words and received forms (O4, O5, O34) -/

theorem decode_unknown_number {number : Byte} (h : ∀ row ∈ operationTable, number ≠ row.1) (operands : List Operand) :
    decode (.op number operands) = .error (.unknownOperation number) := by
  have hnone : operationOf number = none := List.lookup_eq_none_iff.mpr fun row hrow => bne_iff_ne.mpr (h row hrow)
  simp only [decode, hnone]

/-- Settles O4: the sixteen numbers by `decode_encode`, any other because it is not in the table. -/
theorem operationNumbersDecode : Obligations.OperationNumbersDecode := by
  unfold Obligations.OperationNumbersDecode
  refine ⟨⟨decode_encode (i := .reset) rfl, decode_encode (i := .sessionReset) rfl, decode_encode (i := .statReset) rfl,
    fun reg v => decode_encode (i := .cfgWrite reg v) rfl, fun reg => decode_encode (i := .regRead reg) rfl,
    decode_encode (i := .crcInit) rfl, fun b => decode_encode (i := .crcUpdate b) rfl,
    decode_encode (i := .crcRead) rfl, fun d => decode_encode (i := .crcCalc d) rfl,
    fun p => decode_encode (i := .escape p) rfl, fun t p => decode_encode (i := .encode t p) rfl,
    fun d => decode_encode (i := .unescape d) rfl, fun f => decode_encode (i := .decode f) rfl,
    fun f => decode_encode (i := .diag f) rfl, fun c now => decode_encode (i := .feed c now) rfl,
    fun now => decode_encode (i := .tick now) rfl⟩, ?unknown⟩
  intro number operands s rest hnumber hs
  have inTable : ∀ row ∈ operationTable, row.1.toNat ∈ [0x00, 0x01, 0x02, 0x03, 0x04, 0x10, 0x11, 0x12, 0x13, 0x20, 0x21,
      0x30, 0x31, 0x32, 0x40, 0x41] := by decide
  have hd := decode_unknown_number (number := number) (fun row hrow heq => hnumber (heq ▸ inTable row hrow)) operands
  exact ⟨hd, Machine.step_of_decode_error hs hd⟩

/-- A table word reads as the well-formed instruction whose encoding it stands for. -/
theorem decodeTableWord_of_encode {nbits w : Nat} {i : Instr} (hw : requestOfTableWord nbits w = encode i)
    (hwf : i.wf = true) : decodeTableWord nbits w = some i := by
  simp only [decodeTableWord, hw, decode_encode hwf]

/-- Settles O5: each word is the encoding of a well-formed instruction. -/
theorem sampleWordsDecode : Obligations.SampleWordsDecode := by
  unfold Obligations.SampleWordsDecode
  exact ⟨decodeTableWord_of_encode rfl rfl, decodeTableWord_of_encode rfl rfl, decodeTableWord_of_encode rfl rfl,
    decodeTableWord_of_encode rfl rfl, decodeTableWord_of_encode rfl rfl, decodeTableWord_of_encode rfl rfl,
    decodeTableWord_of_encode rfl rfl, decodeTableWord_of_encode rfl rfl, decode_encode (i := .cfgWrite 1 4) rfl,
    decode_encode (i := .frameHeader 7 0x8994 0x01 5) rfl, decode_encode (i := .frameTrailer 5) rfl⟩

end Sys2Proof

namespace Sys2Proof.Machine

/-- The bytes an encoding puts on the line are the bytes the instruction delivers. -/
theorem deliveredBy_of_encode_wire {i : Instr} {form : WireForm} {chunk : Bytes} {now : Time}
    (h : encode i = .wire form chunk now) : deliveredBy i = some (chunk, now) := by
  cases i <;> cases h <;> rfl

/-- Every delivery answers the next state that FEED of its bytes answers. -/
theorem exec_eq_feed_of_deliveredBy {i : Instr} {chunk : Bytes} {now : Time} (h : deliveredBy i = some (chunk, now))
    (s : State) : ∃ t, exec (.feed chunk now) s = .next t ∧ exec i s = .next t :=
  ⟨_, deliver_eq chunk now s, exec_of_deliveredBy h s⟩

/-- R72, R73: `START`, the length and the CRC least significant byte first, the type. -/
theorem headerPart_eq (length : U32) (crc : U16) (type : Byte) :
    ([Config.startByte] ++ bytesLe32 length ++ bytesLe16 crc ++ [type] : Bytes) =
      [0x7E, BitVec.ofNat 8 length.toNat, BitVec.ofNat 8 (length.toNat / 2 ^ 8), BitVec.ofNat 8 (length.toNat / 2 ^ 16),
        BitVec.ofNat 8 (length.toNat / 2 ^ 24), BitVec.ofNat 8 crc.toNat, BitVec.ofNat 8 (crc.toNat / 2 ^ 8), type] := by
  rw [bytesLe32_eq, bytesLe16_eq]; rfl

/-- Settles O34: the forms decode as encodings (`decode_encode`), what decodes to a form is its encoding
(`encode_of_decode`), and a form delivers the bytes of its encoding. -/
theorem receivedFormsComplete : Obligations.ReceivedFormsComplete := by
  unfold Obligations.ReceivedFormsComplete
  intro now s length crc type x
  dsimp only
  rw [← headerPart_eq]
  refine ⟨decode_encode (i := .wireStart now) rfl, decode_encode (i := .wireEnd now) rfl,
    decode_encode (i := .wireEsc now) rfl, ?data, decode_encode (i := .pairStart now) rfl,
    decode_encode (i := .pairEnd now) rfl, decode_encode (i := .pairEsc now) rfl, ?pair,
    decode_encode (i := .frameHeader length crc type now) rfl, decode_encode (i := .framePayload x now) rfl,
    decode_encode (i := .frameTrailer now) rfl,
    fun form chunk i hd => deliveredBy_of_encode_wire (encode_of_decode hd).2,
    exec_eq_feed_of_deliveredBy rfl s, exec_eq_feed_of_deliveredBy rfl s, exec_eq_feed_of_deliveredBy rfl s,
    exec_eq_feed_of_deliveredBy rfl s, exec_eq_feed_of_deliveredBy rfl s, exec_eq_feed_of_deliveredBy rfl s,
    exec_eq_feed_of_deliveredBy rfl s, exec_eq_feed_of_deliveredBy rfl s, exec_eq_feed_of_deliveredBy rfl s,
    exec_eq_feed_of_deliveredBy rfl s, exec_eq_feed_of_deliveredBy rfl s⟩
  case data => exact fun hstart hend hesc => decode_encode ((wf_wireData_iff x now).mpr ⟨hstart, hend, hesc⟩)
  case pair => exact fun hstart hend hesc => decode_encode ((wf_pairAny_iff x now).mpr ⟨hstart, hend, hesc⟩)

/-! Escape pairs (O24) -/

/-- R77: the second byte of a pair is XORed, whatever it is. -/
theorem unescapeBytes_pair (x : Byte) : unescapeBytes [0x7D, x] = .ok [x ^^^ 0x20] := rfl

theorem exec_unescape_pair (x : Byte) (s : State) :
    exec (.unescape [0x7D, x]) s = .next { s with response := .unescaped (.ok [x ^^^ 0x20]) } := by
  rw [← unescapeBytes_pair]; rfl

/-- Settles O24: the canonical pairs are three of the pairs `exec_unescape_pair` is about. -/
theorem escapePairsUnescape : Obligations.EscapePairsUnescape := by
  unfold Obligations.EscapePairsUnescape
  exact fun s => ⟨fun x => exec_unescape_pair x s, exec_unescape_pair 0x5E s, exec_unescape_pair 0x5F s,
    exec_unescape_pair 0x5D s⟩

/-! Runs put together -/

theorem execAll_cons {i : Instr} {s u : State} (h : exec i s = .next u) (is : List Instr) :
    execAll (i :: is) s = (execAll is u).map fun r => (r.1, u.response :: r.2) := by
  rw [execAll, h]

theorem execAll_singleton {i : Instr} {s u : State} (h : exec i s = .next u) : execAll [i] s = some (u, [u.response]) :=
  execAll_cons h []

/-- One run after another. -/
theorem execAll_append {is : List Instr} {s u : State} {rs : List Response} (h : execAll is s = some (u, rs))
    (js : List Instr) : execAll (is ++ js) s = (execAll js u).map fun r => (r.1, rs ++ r.2) := by
  induction is generalizing s rs with
  | nil => cases h; simp
  | cons i is ih =>
    obtain ⟨v, rs', hi, his, rfl⟩ := execAll_cons_eq_some h
    rw [List.cons_append, execAll_cons hi, ih his, Option.map_map]
    rfl

theorem eventsOf_append (rs rs' : List Response) : eventsOf (rs ++ rs') = eventsOf rs ++ eventsOf rs' :=
  List.flatMap_append

/-! The streaming CRC (O15) -/

/-- A CRC.UPDATE for each byte folds the bytes into the register and returns nothing. -/
theorem execAll_crcUpdates (s : State) (data : Bytes) (hs : s.response = .none) :
    execAll (data.map .crcUpdate) s =
      some ({ s with engine := { s.engine with crc := crcFrom s.engine.crc data }, response := .none },
        List.replicate data.length .none) := by
  induction data generalizing s with
  | nil => rw [← hs]; rfl
  | cons b data ih =>
    have hb : exec (.crcUpdate b) s =
        .next { s with engine := { s.engine with crc := crcStep s.engine.crc b }, response := .none } := rfl
    rw [List.map_cons, execAll_cons hb, ih _ rfl]
    rfl

/-- Settles O15: CRC.INIT starts the register where `crc16` starts, and `execAll_crcUpdates` folds the bytes in. -/
theorem streamingCrcEqualsCrcCalc : Obligations.StreamingCrcEqualsCrcCalc := by
  unfold Obligations.StreamingCrcEqualsCrcCalc
  intro s data
  refine ⟨?stream, rfl⟩
  have hinit : exec .crcInit s =
      .next { s with engine := { s.engine with crc := Config.crcInit }, response := .none } := rfl
  have hupdates := (execAll_cons hinit _).trans (congrArg _ (execAll_crcUpdates _ data rfl))
  rw [List.singleton_append, execAll_append hupdates, execAll_singleton rfl]
  rfl

/-! A frame in parts (O54) -/

/-- DECODE undoes ENCODE for every payload that R123 allows. -/
theorem decodeFrame_encodeFrame (t : Byte) {p : Bytes} (hp : p.length < 2 ^ 32) :
    decodeFrame (encodeFrame t p) = .ok ⟨t, p⟩ := by
  have hlen : (BitVec.ofNat 32 p.length).toNat = p.length := Nat.mod_eq_of_lt hp
  rw [encodeFrame, decodeFrame_of_parts (headerBytes_length t p) (headerBytes_start t p), escAfter_escapeBytes,
    unstuffed_escapeBytes, headerBytes_length_field, headerBytes_crc_field, headerBytes_type, hlen]
  simp

/-- An encoded frame at the front of the buffer is accepted, and the loop goes on behind it (R170). -/
theorem settle_encodeFrame {now : Time} {e : Engine} {t : Byte} {p rest : Bytes} (hp : p.length < 2 ^ 32)
    (hbuf : e.buf = encodeFrame t p ++ rest) :
    settle now e = (settle now { e with
      buf := rest, pendingSince := none, counters := e.counters.countFrame (encodeFrame t p).length }).after
        [.frame ⟨t, p⟩] := by
  have hend : endScan e.buf = some (8 + (escapeBytes p).length) := hbuf ▸ endScan_encodeFrame t p rest
  have hlen : 8 + (escapeBytes p).length + 1 = (encodeFrame t p).length := by simp [encodeFrame]; omega
  have htake : e.buf.take (8 + (escapeBytes p).length + 1) = encodeFrame t p := by rw [hbuf, hlen, List.take_left]
  have hdrop : e.buf.drop (8 + (escapeBytes p).length + 1) = rest := by rw [hbuf, hlen, List.drop_left]
  rw [settle_accept hbuf hend (htake ▸ decodeFrame_encodeFrame t hp), hdrop, hlen]

/-- A buffer that waits waited at every shorter length. -/
theorem Engine.waits.of_append {e : Engine} {chunk : Bytes} (h : (e.append chunk).waits) : e.waits := by
  obtain hshort | ⟨hnone, hbound⟩ := h
  · exact .inl (by simp at hshort; omega)
  · refine .inr ⟨?_, ?_⟩
    · cases hi : endScan e.buf with
      | none => rfl
      | some i => cases (endScan_append hi chunk).symm.trans hnone
    · rw [Engine.overBound_eq_false_iff] at hbound ⊢
      simp at hbound
      omega

/-- A delivery on a live engine that completes no frame reports nothing and waits (R166, R173, R175). -/
theorem exec_waits {i : Instr} {chunk b : Bytes} {now : Time} {s : State} (hd : deliveredBy i = some (chunk, now))
    (hlive : s.engine.Live now) (hbuf : s.engine.buf ++ chunk = Config.startByte :: b)
    (hw : (s.engine.append chunk).waits) :
    ∃ u, exec i s = .next u ∧ eventsOf [u.response] = [] ∧ u.engine = (s.engine.append chunk).wait now := by
  rw [exec_of_deliveredBy hd, deliver_eq, assemble_live (expired_of_live hlive), settle_wait hbuf hw]
  exact ⟨_, rfl, rfl, rfl⟩

/-- A delivery on a live engine that completes an encoded frame, and brings nothing more, emits the frame. -/
theorem exec_completes_frame {i : Instr} {chunk p : Bytes} {t : Byte} {now : Time} {s : State}
    (hd : deliveredBy i = some (chunk, now)) (hlive : s.engine.Live now) (hp : p.length < 2 ^ 32)
    (hbuf : s.engine.buf ++ chunk = encodeFrame t p) :
    ∃ u, exec i s = .next u ∧ eventsOf [u.response] = [.frame ⟨t, p⟩] ∧ u.engine = { s.engine with
      buf := [], pendingSince := none, counters := s.engine.counters.countFrame (encodeFrame t p).length } := by
  have hframe : (s.engine.append chunk).buf = encodeFrame t p ++ [] := by rw [List.append_nil]; exact hbuf
  rw [exec_of_deliveredBy hd, deliver_eq, assemble_live (expired_of_live hlive), settle_encodeFrame hp hframe,
    settle_nil rfl]
  exact ⟨_, rfl, rfl, rfl⟩

/-- Once a frame waits with its timestamp, deliveries that neither complete it nor come too late only lengthen the
buffer. -/
theorem execAll_waits {is : List Instr} {s : State} {b : Bytes} {t0 : Time}
    (hpending : s.engine.pendingSince = some t0) (hbuf : s.engine.buf = Config.startByte :: b)
    (hd : ∀ i ∈ is, ∃ chunk now, deliveredBy i = some (chunk, now) ∧ s.engine.Live now)
    (hw : (s.engine.append (fedBy is)).waits) :
    ∃ u rs, execAll is s = some (u, rs) ∧ eventsOf rs = [] ∧ u.engine = s.engine.append (fedBy is) := by
  induction is generalizing s b with
  | nil => exact ⟨s, [], rfl, rfl, by simp [Engine.append, fedBy]⟩
  | cons i is ih =>
    obtain ⟨⟨chunk, now, hi, hlive⟩, hrest⟩ := List.forall_mem_cons.mp hd
    have hfed : s.engine.append (fedBy (i :: is)) = (s.engine.append chunk).append (fedBy is) := by
      rw [fedBy_cons, fedBy_singleton_of_delivers hi]
      simp [Engine.append]
    rw [hfed] at hw ⊢
    have hstart : s.engine.buf ++ chunk = Config.startByte :: (b ++ chunk) := by rw [hbuf]; rfl
    have hwait : (s.engine.append chunk).wait now = s.engine.append chunk := by
      simp [Engine.wait, Engine.append, hpending]
    obtain ⟨u, hexec, hevent, hu⟩ := exec_waits hi hlive hstart hw.of_append
    rw [hwait] at hu
    rw [← hu] at hw ⊢
    obtain ⟨v, rs, hrun, hevents, hv⟩ := ih (s := u) (by rw [hu]; exact hpending) (by rw [hu]; exact hstart)
      (by rw [hu]; exact hrest) hw
    exact ⟨v, u.response :: rs, by rw [execAll_cons hexec, hrun]; rfl, by rw [eventsOf_cons, hevent, hevents]; rfl, hv⟩

/-- All of a frame but its END waits, when the frame is within the bound. -/
theorem waits_of_buf_eq_frame_init {e : Engine} {t : Byte} {p : Bytes} (hbuf : e.buf = headerBytes t p ++ escapeBytes p)
    (hlen : (encodeFrame t p).length ≤ e.cfgMaxPayload.toNat + 10) : e.waits := by
  refine .inr ⟨?noEnd, ?bound⟩
  case noEnd =>
    rw [hbuf, endScan_header (headerBytes_length t p)]
    exact endScanFrom_none_of_not_mem _ _ fun h => (mem_escapeBytes h).2 rfl
  case bound =>
    have hframe : (encodeFrame t p).length = e.buf.length + 1 := by simp [encodeFrame, hbuf]; omega
    exact Engine.overBound_eq_false_iff.mpr (by simp only [Config.overhead]; omega)

theorem live_of_pendingSince_eq {e : Engine} {now : Time} (h : e.pendingSince = some now) : e.Live now := by
  intro t ht
  cases h.symm.trans ht
  simp

/-- The payload bytes, received one by one, are the bytes delivered. -/
theorem fedBy_framePayloads (d : Bytes) (now : Time) : fedBy (d.map fun b => .framePayload b now) = d := by
  simp [fedBy, List.flatMap_map, deliveredBy]

/-- Settles O54: the header waits (`exec_waits`), the payload bytes lengthen the buffer (`execAll_waits`), and the trailer
makes it the encoded frame (`exec_completes_frame`). -/
theorem framePartsAssembleFrame : Obligations.FramePartsAssembleFrame := by
  unfold Obligations.FramePartsAssembleFrame
  intro t p now s ⟨hbuf, hpending⟩ hp hlen
  have hinit : ((s.engine.append (headerBytes t p)).append (escapeBytes p)).waits :=
    waits_of_buf_eq_frame_init (by simp [hbuf]) hlen
  obtain ⟨u, hheader, hnone, hu⟩ := exec_waits (i := .frameHeader (BitVec.ofNat 32 p.length) (crc16 p) t now) (s := s)
    (chunk := headerBytes t p) rfl (by simp [Engine.Live, hpending]) (by rw [hbuf]; rfl) hinit.of_append
  have hupending : u.engine.pendingSince = some now := by simp [hu, hpending]
  have hubuf : u.engine.buf = headerBytes t p := by simp [hu, hbuf]
  have hulive := live_of_pendingSince_eq hupending
  obtain ⟨v, rs, hpayload, hnones, hv⟩ := execAll_waits (is := (escapeBytes p).map fun b => .framePayload b now)
    hupending hubuf (List.forall_mem_map.mpr fun b _ => ⟨[b], now, rfl, hulive⟩)
    (by rw [fedBy_framePayloads, hu]; exact hinit)
  rw [fedBy_framePayloads] at hv
  obtain ⟨w, htrailer, hframe, hw⟩ := exec_completes_frame (i := .frameTrailer now) (s := v) (t := t)
    (chunk := [Config.endByte]) rfl (by rw [hv]; exact hulive) hp (by simp [hv, hubuf, encodeFrame])
  refine ⟨w, u.response :: (rs ++ [w.response]), ?run, ?events, ?idle⟩
  case run =>
    rw [List.append_assoc, List.singleton_append, execAll_cons hheader, execAll_append hpayload,
      execAll_singleton htrailer]
    rfl
  case events => rw [eventsOf_cons, eventsOf_append, hnone, hnones, hframe]; rfl
  case idle => rw [hw]; exact ⟨rfl, rfl⟩

end Sys2Proof.Machine

namespace Sys2Proof.Machine

/-! The bit-serial view (O14) -/

/-- The register after the `n` data bits `f 0`, ..., `f (n - 1)`, each entering as in R108. -/
def crcBits (c : U16) (f : Nat → Bool) (n : Nat) : U16 := (List.range n).foldl (fun c k => crcBit c (f k)) c

theorem crcBits_succ (c : U16) (f : Nat → Bool) (n : Nat) : crcBits c f (n + 1) = crcBit (crcBits c f n) (f n) := by
  simp [crcBits, List.range_succ]

/-- The first `m` bits, then the `n` bits after them. -/
theorem crcBits_add (c : U16) (f : Nat → Bool) (m n : Nat) :
    crcBits c f (m + n) = crcBits (crcBits c f m) (fun k => f (m + k)) n := by
  simp [crcBits, List.range_add, List.foldl_map]

theorem crcBits_congr (c : U16) {f g : Nat → Bool} {n : Nat} (h : ∀ k < n, f k = g k) :
    crcBits c f n = crcBits c g n := by
  induction n with
  | zero => rfl
  | succ n ih => rw [crcBits_succ, crcBits_succ, ih fun k hk => h k (by omega), h n n.lt_succ_self]

/-- A shift made last instead of first. -/
theorem crcShifts_succ (n : Nat) (c : U16) : crcShifts (n + 1) c = crcShift (crcShifts n c) := by
  induction n generalizing c with
  | zero => rfl
  | succ n ih => exact ih (crcShift c)

/-- XORing a word into the register before a shift is feeding its bit 0 and XORing the rest in after the shift. -/
theorem crcShift_xor_word (c d : U16) : crcShift (c ^^^ d) = crcBit c (d.getLsbD 0) ^^^ d >>> 1 := by
  unfold crcShift crcBit
  rw [BitVec.getLsbD_xor, BitVec.ushiftRight_xor_distrib]
  cases c.getLsbD 0 <;> cases d.getLsbD 0 <;> simp [BitVec.xor_assoc, BitVec.xor_comm (d >>> 1)]

/-- The same for `n` shifts: the bits that the shifts have reached have entered, the others are still XORed in. -/
theorem crcShifts_xor_word (n : Nat) (c d : U16) : crcShifts n (c ^^^ d) = crcBits c d.getLsbD n ^^^ d >>> n := by
  induction n with
  | zero => simp [crcShifts, crcBits]
  | succ n ih =>
    rw [crcShifts_succ, ih, crcShift_xor_word, crcBits_succ, BitVec.getLsbD_ushiftRight, Nat.add_zero,
      BitVec.shiftRight_add]

/-- R108: eight shifts reach all bits of the byte. -/
theorem crcStep_eq_crcBits (c : U16) (b : Byte) : crcStep c b = crcBits c b.getLsbD 8 := by
  have hrest : b.zeroExtend 16 >>> 8 = 0#16 := by
    apply BitVec.eq_of_getLsbD_eq
    intro i _
    simp [BitVec.getLsbD_ushiftRight]
  have hbits : ∀ k < 8, (b.zeroExtend 16).getLsbD k = b.getLsbD k := by
    intro k hk
    simp [show k < 16 by omega]
  rw [crcStep, crcShifts_xor_word, hrest, BitVec.xor_zero, crcBits_congr c hbits]

/-- Settles O14: `crcBits` over the eight bits of the byte is the bit-serial register. -/
theorem crcStepEqualsBitSerial : Obligations.CrcStepEqualsBitSerial := by
  unfold Obligations.CrcStepEqualsBitSerial
  exact crcStep_eq_crcBits

/-! The affine law (O16) -/

theorem zipWith_xor_replicate_zero (d : Bytes) : List.zipWith (· ^^^ ·) d (List.replicate d.length 0) = d := by
  induction d with
  | nil => rfl
  | cons b d ih => simp_all [List.replicate_succ]

/-- Settles O16: the zero bytes enter at `0xFFFF` and add nothing, so what is left is the linear law `crcFrom_xor`. -/
theorem crcIsAffine : Obligations.CrcIsAffine := by
  unfold Obligations.CrcIsAffine
  intro a b h
  have hlen : (List.zipWith (· ^^^ ·) a b).length = a.length := by simp [h]
  calc crc16 (List.zipWith (· ^^^ ·) a b)
      = crcFrom ((Config.crcInit ^^^ Config.crcInit) ^^^ Config.crcInit)
          (List.zipWith (· ^^^ ·) (List.zipWith (· ^^^ ·) a b) (List.replicate a.length 0)) := by
        rw [← hlen, zipWith_xor_replicate_zero, BitVec.xor_self, BitVec.zero_xor, crc16]
    _ = crc16 a ^^^ crc16 b ^^^ crc16 (List.replicate a.length 0) := by
        rw [crcFrom_xor _ _ _ _ (by simp [h]), crcFrom_xor _ _ a b h]; rfl

/-! Detection of bursts (O17) -/

/-- Bit `j` of a sequence, the bits of each byte taken least significant first. -/
def bitAt (d : Bytes) (j : Nat) : Bool := (byteAt d (j / 8)).getLsbD (j % 8)

theorem bitAt_cons_of_lt (b : Byte) (d : Bytes) {k : Nat} (hk : k < 8) : bitAt (b :: d) k = b.getLsbD k := by
  simp [bitAt, Nat.div_eq_of_lt hk, Nat.mod_eq_of_lt hk]

theorem bitAt_cons_add (b : Byte) (d : Bytes) (k : Nat) : bitAt (b :: d) (8 + k) = bitAt d k := by
  simp [bitAt, Nat.add_div_left]

theorem bitAt_of_length_le {d : Bytes} {j : Nat} (h : 8 * d.length ≤ j) : bitAt d j = false := by
  have hj : d.length ≤ j / 8 := by omega
  rw [bitAt, byteAt, List.getD_eq_default _ _ hj]
  exact BitVec.getLsbD_zero

/-- Sequences of one length with the same bits are equal. -/
theorem eq_of_bitAt_eq {a b : Bytes} (hlen : a.length = b.length) (h : ∀ j, bitAt a j = bitAt b j) : a = b := by
  induction a generalizing b with
  | nil => exact (List.length_eq_zero_iff.mp hlen.symm).symm
  | cons x a ih =>
    cases b with
    | nil => cases hlen
    | cons y b =>
      have hhead : x = y := BitVec.eq_of_getLsbD_eq fun k hk => by
        rw [← bitAt_cons_of_lt x a hk, h, bitAt_cons_of_lt y b hk]
      have htail : a = b := ih (Nat.succ.inj hlen) fun k => by
        rw [← bitAt_cons_add x, h, bitAt_cons_add]
      rw [hhead, htail]

/-- The register after a sequence is the register after its bits. -/
theorem crcFrom_eq_crcBits (c : U16) (d : Bytes) : crcFrom c d = crcBits c (bitAt d) (8 * d.length) := by
  induction d generalizing c with
  | nil => rfl
  | cons b d ih =>
    rw [crcFrom_cons, ih, crcStep_eq_crcBits, List.length_cons, Nat.mul_succ, Nat.add_comm _ 8, crcBits_add,
      crcBits_congr c fun k hk => bitAt_cons_of_lt b d hk]
    simp only [bitAt_cons_add]

/-- The bits' fold is linear in the pair of register and bits. -/
theorem crcBits_xor (c d : U16) (f g : Nat → Bool) (n : Nat) :
    crcBits (c ^^^ d) (fun k => f k ^^ g k) n = crcBits c f n ^^^ crcBits d g n := by
  induction n with
  | zero => rfl
  | succ n ih => simp only [crcBits_succ, ih, crcBit_xor]

/-- Data bits 0 only shift the register. -/
theorem crcBits_of_false (c : U16) {f : Nat → Bool} {n : Nat} (h : ∀ k < n, f k = false) :
    crcBits c f n = crcShifts n c := by
  have hshifts := crcShifts_xor_word n c 0#16
  rw [BitVec.xor_zero, BitVec.zero_ushiftRight, BitVec.xor_zero] at hshifts
  rw [hshifts]
  exact crcBits_congr c fun k hk => by rw [h k hk, BitVec.getLsbD_zero]

/-- Once all bits left are 0, whether the register is zero does not change any more. -/
theorem crcBits_add_eq_zero_iff (c : U16) {f : Nat → Bool} {m : Nat} (h : ∀ k, m ≤ k → f k = false) (n : Nat) :
    crcBits c f (m + n) = 0 ↔ crcBits c f m = 0 := by
  rw [crcBits_add, crcBits_of_false _ fun k _ => h (m + k) (m.le_add_right k)]
  exact ⟨fun h0 => crcShifts_injective n (h0.trans (crcShifts_zero n).symm), fun h0 => h0.symm ▸ crcShifts_zero n⟩

/-- Feeding the sixteen bits of a word into the zero register shifts the word through it, so only the zero word gives
zero. -/
theorem eq_zero_of_crcBits_getLsbD {d : U16} (h : crcBits 0 d.getLsbD 16 = 0) : d = 0 := by
  have hshifts : crcShifts 16 d = crcBits 0 d.getLsbD 16 := by
    simpa [BitVec.ushiftRight_eq_zero] using crcShifts_xor_word 16 0 d
  exact crcShifts_injective 16 (hshifts.trans (h.trans (crcShifts_zero 16).symm))

/-- Sixteen bits take the zero register to zero only if all of them are 0. -/
theorem eq_false_of_crcBits_sixteen {f : Nat → Bool} (h : crcBits 0 f 16 = 0) {k : Nat} (hk : k < 16) :
    f k = false := by
  have hword : ∀ k < 16, (BitVec.ofFnLE fun i : Fin 16 => f i).getLsbD k = f k := fun k hk => by simp [hk]
  rw [← hword k hk, eq_zero_of_crcBits_getLsbD ((crcBits_congr 0 hword).trans h)]
  exact BitVec.getLsbD_zero

/-- The register starts at zero, and all bits outside a window of 16 and after the `n`-th are 0: it ends at zero only if
every bit is 0. The window may reach past the `n`-th bit, for the bits there are 0. -/
theorem eq_false_of_crcBits_window {f : Nat → Bool} {n w : Nat} (hwindow : ∀ j, f j = true → w ≤ j ∧ j < w + 16)
    (hend : ∀ j, n ≤ j → f j = false) (h : crcBits 0 f n = 0) (j : Nat) : f j = false := by
  have houtside : ∀ j, ¬ (w ≤ j ∧ j < w + 16) → f j = false := fun j hj => by simpa using mt (hwindow j) hj
  have hlong : crcBits 0 f (w + 16 + n) = 0 :=
    Nat.add_comm n _ ▸ (crcBits_add_eq_zero_iff 0 hend (w + 16)).mpr h
  have hthrough : crcBits 0 f (w + 16) = 0 :=
    (crcBits_add_eq_zero_iff 0 (fun j hj => houtside j (by omega)) n).mp hlong
  have hbefore : crcBits 0 f w = 0 := (crcBits_of_false 0 fun j hj => houtside j (by omega)).trans (crcShifts_zero w)
  rw [crcBits_add, hbefore] at hthrough
  by_cases hj : w ≤ j ∧ j < w + 16
  · rw [← Nat.add_sub_of_le hj.1]
    exact eq_false_of_crcBits_sixteen hthrough (by omega)
  · exact houtside j hj

/-- Sequences of one length with one CRC: the bits in which they differ take the zero register to zero. -/
theorem crcBits_diff_eq_zero {a b : Bytes} (hlen : a.length = b.length) (h : crc16 a = crc16 b) :
    crcBits 0 (fun j => bitAt a j ^^ bitAt b j) (8 * a.length) = 0 := by
  have hxor := crcBits_xor Config.crcInit Config.crcInit (bitAt a) (bitAt b) (8 * a.length)
  rw [← crcFrom_eq_crcBits, hlen, ← crcFrom_eq_crcBits, ← hlen, BitVec.xor_self] at hxor
  exact hxor.trans (BitVec.xor_eq_zero_iff.mpr h)

/-- Settles O17: if the CRCs were equal, the differing bits would all be 0 (`eq_false_of_crcBits_window`). -/
theorem crcDetectsBursts : Obligations.CrcDetectsBursts := by
  unfold Obligations.CrcDetectsBursts
  intro a b w hlen hne hwindow hcrc
  refine hne (eq_of_bitAt_eq hlen fun j => ?_)
  refine bne_eq_false_iff_eq.mp (eq_false_of_crcBits_window (w := w) ?window ?tail (crcBits_diff_eq_zero hlen hcrc) j)
  case window => exact fun j hj => hwindow j (bne_iff_ne.mp hj)
  case tail => exact fun j hj => by rw [bitAt_of_length_le hj, bitAt_of_length_le (hlen ▸ hj), Bool.xor_self]

/-! The CRC operations (O10, O11) -/

theorem exec_crcInit (s : State) :
    exec .crcInit s = .next { s with engine := { s.engine with crc := Config.crcInit }, response := .none } := rfl

theorem exec_crcUpdate (b : Byte) (s : State) : exec (.crcUpdate b) s =
    .next { s with engine := { s.engine with crc := crcStep s.engine.crc b }, response := .none } := rfl

theorem exec_crcRead (s : State) : exec .crcRead s = .next { s with response := .crc s.engine.crc } := rfl

theorem exec_crcCalc (data : Bytes) (s : State) :
    exec (.crcCalc data) s = .next { s with response := .crc (crc16 data) } := rfl

/-- Settles O10: each number by `decode_encode`, each operation by its meaning. -/
theorem streamingCrcOperationsComplete : Obligations.StreamingCrcOperationsComplete := by
  unfold Obligations.StreamingCrcOperationsComplete
  exact fun s b => ⟨decode_encode (i := .crcInit) rfl, decode_encode (i := .crcUpdate b) rfl,
    decode_encode (i := .crcRead) rfl, exec_crcInit s, exec_crcUpdate b s, exec_crcRead s⟩

/-- Settles O11: the number by `decode_encode`, the operation by its meaning. -/
theorem crcCalcCompletes : Obligations.CrcCalcCompletes := by
  unfold Obligations.CrcCalcCompletes
  exact fun s data => ⟨decode_encode (i := .crcCalc data) rfl, exec_crcCalc data s⟩

/-! The definitions as the spec writes them, and the check values (O12, O13) -/

/-- The shifts as a loop. -/
theorem crcShifts_eq_foldl (n : Nat) (c : U16) : crcShifts n c = (List.range n).foldl (fun c _ => crcShift c) c := by
  induction n with
  | zero => rfl
  | succ n ih => rw [crcShifts_succ, ih, List.range_succ, List.foldl_append]; rfl

/-- Settles O12: the loop by `crcShifts_eq_foldl`; `crc16` is a fold by definition. -/
theorem crcFollowsBitLoop : Obligations.CrcFollowsBitLoop := by
  unfold Obligations.CrcFollowsBitLoop
  exact ⟨fun c b => crcShifts_eq_foldl 8 (c ^^^ b.zeroExtend 16), fun _ => rfl⟩

/-- Settles O13: the empty sequence leaves the register at its initial value (R102); the nine bytes of R109 are run. -/
theorem crcCheckValues : Obligations.CrcCheckValues := by
  unfold Obligations.CrcCheckValues
  exact ⟨crcFrom_nil Config.crcInit, by decide +kernel⟩

end Sys2Proof.Machine

namespace Sys2Proof.Machine

/-! ESCAPE, ENCODE and DECODE answer what the codec's functions compute -/

theorem exec_escape (p : Bytes) (s : State) :
    exec (.escape p) s = .next { s with response := .bytes (escapeBytes p) } := rfl

/-- R122, for every payload that has an encoding. -/
theorem exec_encode (t : Byte) {p : Bytes} (hp : p.length < 2 ^ 32) (s : State) :
    exec (.encode t p) s = .next { s with response := .bytes (encodeFrame t p) } := if_pos hp

/-- R123: the length field cannot hold the length. -/
theorem exec_encode_of_too_long (t : Byte) {p : Bytes} (hp : 2 ^ 32 ≤ p.length) (s : State) :
    exec (.encode t p) s = .refused .payloadTooLong := if_neg (Nat.not_lt.mpr hp)

theorem exec_decode (f : Bytes) (s : State) :
    exec (.decode f) s = .next { s with response := .decoded (decodeFrame f) } := rfl

/-! The round trip (O27) -/

/-- Settles O27: DECODE of the encoded frame is `decodeFrame_encodeFrame`. -/
theorem frameRoundTrip : Obligations.FrameRoundTrip := by
  unfold Obligations.FrameRoundTrip
  intro t p s hp
  have hdecode := exec_decode (encodeFrame t p) s
  rw [decodeFrame_encodeFrame t hp] at hdecode
  exact ⟨encodeFrame t p, exec_encode t hp s, hdecode⟩

/-! The stuffed payload (O18, O19) -/

/-- R120 with the values of R9. -/
theorem isReserved_eq_decide : isReserved = fun b => decide (b = 0x7E ∨ b = 0x7F ∨ b = 0x7D) :=
  funext fun b => Bool.eq_iff_iff.mpr ((isReserved_iff b).trans decide_eq_true_iff.symm)

/-- R121 with the values of R9. -/
theorem escapeByte_eq_ite (b : Byte) :
    escapeByte b = if b = 0x7E ∨ b = 0x7F ∨ b = 0x7D then [0x7D, b ^^^ 0x20] else [b] :=
  ite_congr (propext (isReserved_iff b)) (fun _ => rfl) fun _ => rfl

/-- Settles O18: the number by `decode_encode`, the bytes by `escapeByte_eq_ite`. -/
theorem escapeCompletes : Obligations.EscapeCompletes := by
  unfold Obligations.EscapeCompletes
  intro p s
  rw [← funext escapeByte_eq_ite]
  exact ⟨decode_encode (i := .escape p) rfl, exec_escape p s⟩

theorem ne_escByte_of_isReserved_eq_false {b : Byte} (h : isReserved b = false) : b ≠ Config.escByte := by
  rintro rfl
  cases h

/-- R125 (b): an `ESC` in a stuffed payload is the first byte of a canonical pair. -/
theorem escapeBytes_esc_followed {p a b : Bytes} (h : escapeBytes p = a ++ Config.escByte :: b) :
    ∃ x rest, b = x :: rest ∧ x ∈ canonicalSeconds := by
  induction p generalizing a with
  | nil => simp at h
  | cons y p ih =>
    rw [escapeBytes_cons] at h
    obtain ⟨hy, hbyte⟩ | ⟨-, hpair, hsecond⟩ := escapeByte_cases y
    · rw [hbyte] at h
      match a, h with
      | [], h => exact absurd (List.cons.inj h).1 (ne_escByte_of_isReserved_eq_false hy)
      | _ :: _, h => exact ih (List.cons.inj h).2
    · rw [hpair] at h
      match a, h with
      | [], h => exact ⟨_, _, (List.cons.inj h).2.symm, hsecond⟩
      | [_], h =>
        have hesc : y ^^^ Config.escXor = Config.escByte := (List.cons.inj (List.cons.inj h).2).1
        exact absurd (hesc ▸ hsecond) (by decide)
      | _ :: _ :: _, h => exact ih (List.cons.inj (List.cons.inj h).2).2

theorem mem_canonicalSeconds {x : Byte} : x ∈ canonicalSeconds ↔ x = 0x5D ∨ x = 0x5E ∨ x = 0x5F := by
  simp only [canonicalSeconds, List.mem_cons, List.not_mem_nil, or_false]
  tauto

/-- R125 (c). -/
theorem unescapeBytes_escapeBytes (p : Bytes) : unescapeBytes (escapeBytes p) = .ok p := by
  rw [unescapeBytes_eq, escAfter_escapeBytes, unstuffed_escapeBytes]
  rfl

/-- R125 (d): un-stuffing is a left inverse. -/
theorem escapeBytes_injective : Function.Injective escapeBytes :=
  Function.LeftInverse.injective unstuffed_escapeBytes

/-- Settles O19: the markers by `mem_escapeBytes`, the pairs by `escapeBytes_esc_followed`, the length by
`escapeBytes_length`, the rest because un-stuffing undoes stuffing. -/
theorem escapedStreamProperties : Obligations.EscapedStreamProperties := by
  unfold Obligations.EscapedStreamProperties
  intro p
  refine ⟨fun h => (mem_escapeBytes h).1 rfl, fun h => (mem_escapeBytes h).2 rfl, ?pairs, ?length,
    unescapeBytes_escapeBytes p, fun _ h => escapeBytes_injective h⟩
  case pairs =>
    intro a b h
    obtain ⟨x, rest, hb, hx⟩ := escapeBytes_esc_followed h
    exact ⟨x, rest, hb, mem_canonicalSeconds.mp hx⟩
  case length => rw [escapeBytes_length, isReserved_eq_decide]

/-! The encoded frame (O20, O21, O22) -/

/-- R70, R72, R73: the header of a payload that R123 allows, byte by byte. -/
theorem headerBytes_eq (t : Byte) {p : Bytes} (hp : p.length < 2 ^ 32) :
    headerBytes t p =
      [0x7E, BitVec.ofNat 8 p.length, BitVec.ofNat 8 (p.length / 2 ^ 8), BitVec.ofNat 8 (p.length / 2 ^ 16),
        BitVec.ofNat 8 (p.length / 2 ^ 24), BitVec.ofNat 8 (crc16 p).toNat, BitVec.ofNat 8 ((crc16 p).toNat / 2 ^ 8),
        t] := by
  have hlen : (BitVec.ofNat 32 p.length).toNat = p.length := Nat.mod_eq_of_lt hp
  rw [headerBytes, headerPart_eq, hlen]

/-- Settles O20: the number by `decode_encode`, the bytes by `headerBytes_eq`. -/
theorem encodeCompletes : Obligations.EncodeCompletes := by
  unfold Obligations.EncodeCompletes
  intro t p s hp
  rw [← headerBytes_eq t hp]
  exact ⟨decode_encode (i := .encode t p) rfl, exec_encode t hp s⟩

/-- Settles O21: the frame of a shorter payload is `encodeFrame`, which reads no state. -/
theorem encodeRefusesLongPayload : Obligations.EncodeRefusesLongPayload := by
  unfold Obligations.EncodeRefusesLongPayload
  exact fun t p s => ⟨fun hp => exec_encode_of_too_long t hp s,
    fun hp => ⟨encodeFrame t p, fun m => exec_encode t hp { s with engine := { s.engine with cfgMaxPayload := m } }⟩⟩

theorem byteAt_mem {d : Bytes} {k : Nat} (hk : k < d.length) : byteAt d k ∈ d := by
  rw [byteAt, List.getD_eq_getElem d 0 hk]
  exact List.getElem_mem hk

/-- Between the header and the `END` of an encoded frame stands the stuffed payload. -/
theorem byteAt_encodeFrame_payload (t : Byte) (p : Bytes) {k : Nat} (hk : k < (escapeBytes p).length) :
    byteAt (encodeFrame t p) (8 + k) = byteAt (escapeBytes p) k := by
  rw [encodeFrame, List.append_assoc, ← headerBytes_length t p, byteAt_append_right, byteAt_append_left _ hk]

theorem encodeFrame_length_eq_escapeBytes_length (t : Byte) (p : Bytes) :
    (encodeFrame t p).length = 8 + (escapeBytes p).length + 1 := by
  rw [encodeFrame, List.length_append, List.length_append, headerBytes_length, List.length_singleton]

/-- ENCODE is injective because DECODE undoes it. -/
theorem encodeFrame_injective {t t' : Byte} {p p' : Bytes} (hp : p.length < 2 ^ 32) (hp' : p'.length < 2 ^ 32)
    (h : encodeFrame t' p' = encodeFrame t p) : t' = t ∧ p' = p := by
  have hdecoded := congrArg decodeFrame h
  rw [decodeFrame_encodeFrame t hp, decodeFrame_encodeFrame t' hp'] at hdecoded
  cases hdecoded
  exact ⟨rfl, rfl⟩

/-- Settles O22: the parts of the frame give its length, markers and payload bytes (`byteAt_encodeFrame_payload`), and the
END scan and injectivity are laws of `encodeFrame`. -/
theorem encodedFrameShape : Obligations.EncodedFrameShape := by
  unfold Obligations.EncodedFrameShape
  intro t p hp
  have hlen := encodeFrame_length_eq_escapeBytes_length t p
  refine ⟨?length, rfl, lastByte_append _ Config.endByte, ?between, ?scan, fun _ _ => encodeFrame_injective hp⟩
  case length => rw [encodeFrame_length, isReserved_eq_decide]
  case between =>
    intro k hheader hend
    obtain ⟨j, rfl⟩ := Nat.exists_eq_add_of_le hheader
    have hj : j < (escapeBytes p).length := by omega
    rw [byteAt_encodeFrame_payload t p hj]
    exact mem_escapeBytes (byteAt_mem hj)
  case scan =>
    have hscan := endScan_encodeFrame t p []
    rw [List.append_nil] at hscan
    rw [hscan, hlen, Nat.add_sub_cancel]

end Sys2Proof.Machine

namespace Sys2Proof.Machine

/-! UNESCAPE (O23) -/

theorem exec_unescape (d : Bytes) (s : State) :
    exec (.unescape d) s = .next { s with response := .unescaped (unescapeBytes d) } := rfl

/-- The bytes of a list of tokens: a literal is itself, a pair is `7D` and its second byte. -/
def tokenWire (tokens : List (Byte ⊕ Byte)) : Bytes := tokens.flatMap (Sum.elim (fun b => [b]) (fun x => [0x7D, x]))

/-- The bytes a list of tokens stands for (R140). -/
def tokenValue (tokens : List (Byte ⊕ Byte)) : Bytes := tokens.map (Sum.elim id (fun x => x ^^^ 0x20))

@[simp] theorem tokenWire_literal (b : Byte) (tokens : List (Byte ⊕ Byte)) :
    tokenWire (.inl b :: tokens) = b :: tokenWire tokens := rfl

@[simp] theorem tokenWire_pair (x : Byte) (tokens : List (Byte ⊕ Byte)) :
    tokenWire (.inr x :: tokens) = Config.escByte :: x :: tokenWire tokens := rfl

/-- A sequence is read from the left as literals other than `7D` and pairs; only a last `7D` can be left without its
second byte. -/
theorem exists_tokens : ∀ d : Bytes, ∃ tokens : List (Byte ⊕ Byte), (∀ b, .inl b ∈ tokens → b ≠ Config.escByte) ∧
    (d = tokenWire tokens ∨ d = tokenWire tokens ++ [Config.escByte])
  | [] => ⟨[], by simp, .inl rfl⟩
  | [b] => by
    by_cases hb : b = Config.escByte
    · exact ⟨[], by simp, .inr (by rw [hb]; rfl)⟩
    · exact ⟨[.inl b], by simpa using hb, .inl rfl⟩
  | b :: x :: d => by
    by_cases hb : b = Config.escByte
    · obtain ⟨tokens, hliteral, hwire⟩ := exists_tokens d
      exact ⟨.inr x :: tokens, by simpa using hliteral, by simpa [hb] using hwire⟩
    · obtain ⟨tokens, hliteral, hwire⟩ := exists_tokens (x :: d)
      exact ⟨.inl b :: tokens, by simpa [hb] using hliteral, by simpa using hwire⟩

/-- The un-stuffer reads the tokens back and then stands between tokens, whatever follows. -/
theorem unescapeFrom_tokenWire_append {tokens : List (Byte ⊕ Byte)} (h : ∀ b, .inl b ∈ tokens → b ≠ Config.escByte)
    (rest : Bytes) :
    unescapeFrom false (tokenWire tokens ++ rest) = (unescapeFrom false rest).map (tokenValue tokens ++ ·) := by
  induction tokens with
  | nil => exact Option.map_id'.symm
  | cons token tokens ih =>
    have ih := ih fun b hb => h b (List.mem_cons_of_mem _ hb)
    cases token with
    | inl b =>
      have hb : b ≠ Config.escByte := h b List.mem_cons_self
      rw [tokenWire_literal, List.cons_append, unescapeFrom, if_neg hb, ih, Option.map_map]
      rfl
    | inr x =>
      rw [tokenWire_pair, List.cons_append, List.cons_append, unescapeFrom, if_pos rfl, unescapeFrom, ih,
        Option.map_map]
      rfl

theorem unescapeBytes_tokenWire {tokens : List (Byte ⊕ Byte)} (h : ∀ b, .inl b ∈ tokens → b ≠ Config.escByte) :
    unescapeBytes (tokenWire tokens) = .ok (tokenValue tokens) := by
  have hread := unescapeFrom_tokenWire_append h []
  rw [List.append_nil] at hread
  rw [unescapeBytes, hread]
  simp [unescapeFrom]

theorem unescapeBytes_tokenWire_dangling {tokens : List (Byte ⊕ Byte)}
    (h : ∀ b, .inl b ∈ tokens → b ≠ Config.escByte) :
    unescapeBytes (tokenWire tokens ++ [Config.escByte]) = .err .escapeSequence := by
  rw [unescapeBytes, unescapeFrom_tokenWire_append h]
  rfl

/-- Settles O23: the tokens by `exists_tokens`, what they un-stuff to by `unescapeFrom_tokenWire_append`. -/
theorem unescapeCompletes : Obligations.UnescapeCompletes := by
  unfold Obligations.UnescapeCompletes
  intro d
  obtain ⟨tokens, hliteral, hwire⟩ := exists_tokens d
  refine ⟨tokens, hliteral, fun s => ⟨decode_encode (i := .unescape d) rfl, ?_⟩⟩
  rw [exec_unescape]
  obtain rfl | rfl := hwire
  · exact .inl ⟨rfl, by rw [unescapeBytes_tokenWire hliteral]; rfl⟩
  · exact .inr ⟨rfl, by rw [unescapeBytes_tokenWire_dangling hliteral]⟩

/-! DECODE by its steps (O25, O26) -/

/-- The four bytes a word is read from are its bytes. -/
theorem bytesLe32_le32 (f : Bytes) (i : Nat) :
    bytesLe32 (le32 f i) = [byteAt f i, byteAt f (i + 1), byteAt f (i + 2), byteAt f (i + 3)] :=
  bytesLe32_append _ _ _ _

/-- The two bytes a word is read from are its bytes. -/
theorem bytesLe16_le16 (f : Bytes) (i : Nat) : bytesLe16 (le16 f i) = [byteAt f i, byteAt f (i + 1)] :=
  bytesLe16_append _ _

/-! The steps of DECODE behind the marker check, for a candidate that passes it. -/

section Steps

variable {f : Bytes} (hlen : 8 ≤ f.length) (hstart : byteAt f 0 = Config.startByte) (hend : lastByte f = Config.endByte)
include hlen hstart hend

/-- DECODE, step 4. -/
theorem decodeFrame_bad_escape {kind : ErrorKind} (hregion : unescapeBytes (payloadRegion f) = .err kind) :
    decodeFrame f = .err kind := by
  rw [decodeFrame_good_markers hlen hstart hend, hregion]

/-- DECODE, step 5. -/
theorem decodeFrame_bad_length {p : Bytes} (hregion : unescapeBytes (payloadRegion f) = .ok p)
    (hlength : p.length ≠ (le32 f 1).toNat) : decodeFrame f = .err .framing := by
  rw [decodeFrame_good_markers hlen hstart hend, hregion]
  exact if_pos hlength

/-- DECODE, step 6. -/
theorem decodeFrame_bad_crc {p : Bytes} (hregion : unescapeBytes (payloadRegion f) = .ok p)
    (hlength : p.length = (le32 f 1).toNat) (hcrc : crc16 p ≠ le16 f 5) : decodeFrame f = .err .crc := by
  rw [decodeFrame_good_markers hlen hstart hend, hregion]
  exact (if_neg (not_not.mpr hlength)).trans (if_pos hcrc)

/-- DECODE, step 7. -/
theorem decodeFrame_of_checks {p : Bytes} (hregion : unescapeBytes (payloadRegion f) = .ok p)
    (hlength : p.length = (le32 f 1).toNat) (hcrc : crc16 p = le16 f 5) : decodeFrame f = .ok ⟨byteAt f 7, p⟩ := by
  rw [decodeFrame_good_markers hlen hstart hend, hregion]
  exact (if_neg (not_not.mpr hlength)).trans (if_neg (not_not.mpr hcrc))

end Steps

/-- R141, R228: DECODE accepts exactly what passes every step. -/
theorem decodeFrame_eq_ok_iff {f : Bytes} {r : Frame} :
    decodeFrame f = .ok r ↔
      8 ≤ f.length ∧ byteAt f 0 = Config.startByte ∧ lastByte f = Config.endByte ∧
        unescapeBytes (payloadRegion f) = .ok r.payload ∧ r.payload.length = (le32 f 1).toNat ∧
        crc16 r.payload = le16 f 5 ∧ byteAt f 7 = r.messageType := by
  constructor
  · intro h
    have hlen : 8 ≤ f.length := by
      by_contra hshort
      rw [decodeFrame_short (Nat.not_le.mp hshort)] at h
      cases h
    have hmarkers : byteAt f 0 = Config.startByte ∧ lastByte f = Config.endByte := by
      by_contra hbad
      rw [decodeFrame_bad_markers hlen (not_and_or.mp hbad)] at h
      cases h
    obtain ⟨hstart, hend⟩ := hmarkers
    cases hregion : unescapeBytes (payloadRegion f) with
    | err kind =>
      rw [decodeFrame_bad_escape hlen hstart hend hregion] at h
      cases h
    | ok p =>
      have hlength : p.length = (le32 f 1).toNat := by
        by_contra hbad
        rw [decodeFrame_bad_length hlen hstart hend hregion hbad] at h
        cases h
      have hcrc : crc16 p = le16 f 5 := by
        by_contra hbad
        rw [decodeFrame_bad_crc hlen hstart hend hregion hlength hbad] at h
        cases h
      rw [decodeFrame_of_checks hlen hstart hend hregion hlength hcrc] at h
      cases h
      exact ⟨hlen, hstart, hend, rfl, hlength, hcrc, rfl⟩
  · rintro ⟨hlen, hstart, hend, hregion, hlength, hcrc, htype⟩
    rw [decodeFrame_of_checks hlen hstart hend hregion hlength hcrc, htype]

/-- Settles O25: the number by `decode_encode`, each answer by the lemma about its step. -/
theorem decodeCompletes : Obligations.DecodeCompletes := by
  unfold Obligations.DecodeCompletes
  intro f s n answers declaredLength declaredCrc
  have hanswers : ∀ r, decodeFrame f = r → answers r := fun _ h => h ▸ exec_decode f s
  have hdeclaredLength : (le32 f 1).toNat = declaredLength := le32_toNat f 1
  have hdeclaredCrc : ∀ c : U16, c = le16 f 5 ↔ c.toNat = declaredCrc := fun c => by
    rw [← BitVec.toNat_inj, le16_toNat]
  rw [← hdeclaredLength]
  simp only [ne_eq, ← hdeclaredCrc]
  refine ⟨decode_encode (i := .decode f) rfl, fun hshort => hanswers _ (decodeFrame_short hshort),
    fun hlen hbad => hanswers _ (decodeFrame_bad_markers hlen hbad), fun hlen hstart hend => ⟨?escape, ?unescaped⟩⟩
  case escape => exact fun hregion => hanswers _ (decodeFrame_bad_escape hlen hstart hend hregion)
  case unescaped =>
    exact fun p hregion => ⟨fun hbad => hanswers _ (decodeFrame_bad_length hlen hstart hend hregion hbad),
      fun hlength hbad => hanswers _ (decodeFrame_bad_crc hlen hstart hend hregion hlength hbad),
      fun hlength hcrc => hanswers _ (decodeFrame_of_checks hlen hstart hend hregion hlength hcrc)⟩

/-- R142: with fewer than 10 bytes there is no byte between the header and the last one. -/
theorem payloadRegion_eq_nil {f : Bytes} (h : f.length ≤ 9) : payloadRegion f = [] := by
  rw [payloadRegion, List.drop_eq_nil_iff, List.length_take, Config.headerLen]
  omega

theorem exec_decode_eq_ok_iff {f : Bytes} {s : State} {r : Frame} :
    exec (.decode f) s = .next { s with response := .decoded (.ok r) } ↔ decodeFrame f = .ok r := by
  rw [exec_decode]
  simp

/-- Settles O26: no byte is left for the payload region, which is empty, so the declared length is 0 and
the declared CRC is that of no bytes, `0xFFFF`. -/
theorem eightByteCorner : Obligations.EightByteCorner := by
  unfold Obligations.EightByteCorner
  intro f s r hlen
  rw [exec_decode_eq_ok_iff]
  constructor
  · intro h
    obtain ⟨-, hstart, hend, hregion, hlength, hcrc, htype⟩ := decodeFrame_eq_ok_iff.mp h
    obtain ⟨type, payload⟩ := r
    rw [payloadRegion_eq_nil (by omega)] at hregion
    cases hregion
    have hle32 : le32 f 1 = 0#32 := BitVec.eq_of_toNat_eq hlength.symm
    have hlengthBytes := bytesLe32_le32 f 1
    rw [hle32] at hlengthBytes
    have hcrcBytes := bytesLe16_le16 f 5
    rw [← hcrc] at hcrcBytes
    match f, hlen with
    | [b0, b1, b2, b3, b4, b5, b6, b7], _ =>
      cases hstart
      cases hend
      cases hlengthBytes
      cases hcrcBytes
      cases htype
      exact ⟨rfl, rfl⟩
  · rintro ⟨rfl, rfl⟩
    decide

/-! DIAG (O30) -/

theorem exec_diag (f : Bytes) (s : State) :
    exec (.diag f) s = .next { s with response := .diag (diagFrame f) } := rfl

/-- The fields of the record that DIAG always gives. -/
theorem diagFrame_always (f : Bytes) :
    (diagFrame f).tooShort = decide (f.length < 8) ∧
      (diagFrame f).startOk = (decide (1 ≤ f.length) && byteAt f 0 == Config.startByte) ∧
      (diagFrame f).endOk = (decide (1 ≤ f.length) && lastByte f == Config.endByte) ∧
      (diagFrame f).result = decodeFrame f := by
  unfold diagFrame
  dsimp only
  split
  · exact ⟨rfl, rfl, rfl, rfl⟩
  · split <;> exact ⟨rfl, rfl, rfl, rfl⟩

/-- An input too short for a header has no other field. -/
theorem diagFrame_of_short {f : Bytes} (h : f.length < 8) :
    (diagFrame f).declaredLength = none ∧ (diagFrame f).declaredCrc = none ∧ (diagFrame f).msgType = none ∧
      (diagFrame f).escapeOk = none ∧ (diagFrame f).actualLength = none ∧ (diagFrame f).lengthMatch = none ∧
      (diagFrame f).computedCrc = none ∧ (diagFrame f).crcMatch = none := by
  have hshort : decide (f.length < Config.minFrameLen) = true := decide_eq_true h
  simp [diagFrame, hshort]

/-- The fields read from the header. -/
theorem diagFrame_header {f : Bytes} (h : 8 ≤ f.length) :
    (diagFrame f).declaredLength = some (le32 f 1) ∧ (diagFrame f).declaredCrc = some (le16 f 5) ∧
      (diagFrame f).msgType = some (byteAt f 7) := by
  have hshort : decide (f.length < Config.minFrameLen) = false := decide_eq_false (Nat.not_lt.mpr h)
  cases hregion : unescapeBytes (payloadRegion f) <;> simp [diagFrame, hshort, hregion]

/-- The checks of a payload region that un-stuffs. -/
theorem diagFrame_of_unescaped {f p : Bytes} (h : 8 ≤ f.length) (hregion : unescapeBytes (payloadRegion f) = .ok p) :
    (diagFrame f).escapeOk = some true ∧ (diagFrame f).actualLength = some p.length ∧
      (diagFrame f).lengthMatch = some (decide (p.length = (le32 f 1).toNat)) ∧
      (diagFrame f).computedCrc = some (crc16 p) ∧ (diagFrame f).crcMatch = some (decide (crc16 p = le16 f 5)) := by
  have hshort : decide (f.length < Config.minFrameLen) = false := decide_eq_false (Nat.not_lt.mpr h)
  simp [diagFrame, hshort, hregion, beq_eq_decide]

/-- The checks of a payload region that does not. -/
theorem diagFrame_of_escape_error {f : Bytes} {kind : ErrorKind} (h : 8 ≤ f.length)
    (hregion : unescapeBytes (payloadRegion f) = .err kind) :
    (diagFrame f).escapeOk = some false ∧ (diagFrame f).actualLength = none ∧ (diagFrame f).lengthMatch = none ∧
      (diagFrame f).computedCrc = none ∧ (diagFrame f).crcMatch = none := by
  have hshort : decide (f.length < Config.minFrameLen) = false := decide_eq_false (Nat.not_lt.mpr h)
  simp [diagFrame, hshort, hregion]

theorem diagFrame_tooShort_iff (f : Bytes) : (diagFrame f).tooShort = true ↔ f.length < 8 := by
  rw [(diagFrame_always f).1, decide_eq_true_iff]

theorem diagFrame_startOk_iff (f : Bytes) :
    (diagFrame f).startOk = true ↔ 1 ≤ f.length ∧ byteAt f 0 = Config.startByte := by
  rw [(diagFrame_always f).2.1, Bool.and_eq_true, decide_eq_true_iff, beq_iff_eq]

theorem diagFrame_endOk_iff (f : Bytes) :
    (diagFrame f).endOk = true ↔ 1 ≤ f.length ∧ lastByte f = Config.endByte := by
  rw [(diagFrame_always f).2.2.1, Bool.and_eq_true, decide_eq_true_iff, beq_iff_eq]

theorem diagFrame_result (f : Bytes) : (diagFrame f).result = decodeFrame f := (diagFrame_always f).2.2.2

/-- R146: the result is `Ok` exactly when no check failed. -/
theorem diagFrame_result_ok_iff (f : Bytes) :
    (∃ r, (diagFrame f).result = .ok r) ↔
      (diagFrame f).tooShort = false ∧ (diagFrame f).startOk = true ∧ (diagFrame f).endOk = true ∧
        (diagFrame f).escapeOk = some true ∧ (diagFrame f).lengthMatch = some true ∧
        (diagFrame f).crcMatch = some true := by
  rw [diagFrame_result, ← Bool.not_eq_true, diagFrame_tooShort_iff, diagFrame_startOk_iff, diagFrame_endOk_iff]
  constructor
  · rintro ⟨r, hr⟩
    obtain ⟨hlen, hstart, hend, hregion, hlength, hcrc, -⟩ := decodeFrame_eq_ok_iff.mp hr
    obtain ⟨hescapeOk, -, hlengthMatch, -, hcrcMatch⟩ := diagFrame_of_unescaped hlen hregion
    rw [decide_eq_true hlength] at hlengthMatch
    rw [decide_eq_true hcrc] at hcrcMatch
    exact ⟨Nat.not_lt.mpr hlen, ⟨by omega, hstart⟩, ⟨by omega, hend⟩, hescapeOk, hlengthMatch, hcrcMatch⟩
  · rintro ⟨hshort, ⟨-, hstart⟩, ⟨-, hend⟩, hescapeOk, hlengthMatch, hcrcMatch⟩
    have hlen : 8 ≤ f.length := Nat.not_lt.mp hshort
    cases hregion : unescapeBytes (payloadRegion f) with
    | err kind =>
      rw [(diagFrame_of_escape_error hlen hregion).1] at hescapeOk
      cases hescapeOk
    | ok p =>
      obtain ⟨-, -, hlength, -, hcrc⟩ := diagFrame_of_unescaped hlen hregion
      rw [hlength, Option.some.injEq, decide_eq_true_iff] at hlengthMatch
      rw [hcrc, Option.some.injEq, decide_eq_true_iff] at hcrcMatch
      exact ⟨_, decodeFrame_of_checks hlen hstart hend hregion hlengthMatch hcrcMatch⟩

/-- Settles O30: the number by `decode_encode`, each field by the lemma about it, the law by
`diagFrame_result_ok_iff`. -/
theorem diagCompletes : Obligations.DiagCompletes := by
  unfold Obligations.DiagCompletes
  intro f s
  refine ⟨decode_encode (i := .diag f) rfl, diagFrame f, exec_diag f s, diagFrame_tooShort_iff f,
    diagFrame_startOk_iff f, diagFrame_endOk_iff f, diagFrame_result f, diagFrame_of_short, fun hlen => ?long,
    diagFrame_result_ok_iff f⟩
  case long =>
    obtain ⟨hlength, hcrc, htype⟩ := diagFrame_header hlen
    exact ⟨hlength, hcrc, htype, fun _ hregion => diagFrame_of_unescaped hlen hregion,
      fun _ hregion => diagFrame_of_escape_error hlen hregion⟩

/-! One flipped bit in the payload region (O28) -/

/-- R110 for two payloads that differ only in the same one or two adjacent bytes. -/
theorem crc16_ne_of_middle_ne {m m' : Bytes} (u v : Bytes) (hlen : m.length = m'.length) (hshort : m.length ≤ 2)
    (hne : m ≠ m') : crc16 (u ++ (m ++ v)) ≠ crc16 (u ++ (m' ++ v)) := by
  refine crcDetectsBursts _ _ (8 * u.length) (by simp [hlen]) (by simpa using hne) fun j hj => ?_
  by_contra hwindow
  refine hj (congrArg (BitVec.getLsbD · (j % 8)) ?_)
  obtain hbefore | hafter : j / 8 < u.length ∨ u.length + m.length ≤ j / 8 := by omega
  · rw [byteAt_append_left _ hbefore, byteAt_append_left _ hbefore]
  · obtain ⟨i, hi⟩ := Nat.exists_eq_add_of_le hafter
    rw [hi, Nat.add_assoc, byteAt_append_right, byteAt_append_right, byteAt_append_right, hlen, byteAt_append_right]

/-- A flipped bit changes the byte. -/
theorem xor_bit_ne (x : Byte) {bit : Nat} (hbit : bit < 8) : x ^^^ (1#8 <<< bit) ≠ x := by
  intro h
  have hmask : 1#8 <<< bit = 0#8 := by simpa using h
  have := congrArg (BitVec.getLsbD · bit) hmask
  simp [hbit] at this

/-- Where a byte of a stuffed payload comes from: it is a byte that is not reserved, or the first or the second byte of
the pair of a reserved one. -/
inductive StuffedByte : Bytes → Bytes → Byte → Bytes → Prop where
  | literal (q : Bytes) {b : Byte} (r : Bytes) (h : isReserved b = false) :
      StuffedByte (q ++ b :: r) (escapeBytes q) b (escapeBytes r)
  | first (q : Bytes) {b : Byte} (r : Bytes) (h : isReserved b = true) :
      StuffedByte (q ++ b :: r) (escapeBytes q) Config.escByte ((b ^^^ Config.escXor) :: escapeBytes r)
  | second (q : Bytes) {b : Byte} (r : Bytes) (h : isReserved b = true) :
      StuffedByte (q ++ b :: r) (escapeBytes q ++ [Config.escByte]) (b ^^^ Config.escXor) (escapeBytes r)

theorem StuffedByte.cons {p a c : Bytes} {x : Byte} (h : StuffedByte p a x c) (b : Byte) :
    StuffedByte (b :: p) (escapeByte b ++ a) x c := by
  cases h with
  | literal q r h => rw [← escapeBytes_cons]; exact .literal (b :: q) r h
  | first q r h => rw [← escapeBytes_cons]; exact .first (b :: q) r h
  | second q r h => rw [← List.append_assoc, ← escapeBytes_cons]; exact .second (b :: q) r h

/-- Every splitting of a stuffed payload at a byte is one of the three. -/
theorem stuffedByte_of_split {p a c : Bytes} {x : Byte} (h : escapeBytes p = a ++ x :: c) : StuffedByte p a x c := by
  induction p generalizing a with
  | nil => simp at h
  | cons b p ih =>
    rw [escapeBytes_cons] at h
    obtain ⟨hb, hbyte⟩ | ⟨hb, hpair, -⟩ := escapeByte_cases b
    · rw [hbyte] at h
      match a with
      | [] =>
        cases h
        exact .literal [] p hb
      | y :: a =>
        obtain ⟨rfl, hrest⟩ := List.cons.inj h
        have hp := (ih hrest).cons b
        rwa [hbyte] at hp
    · rw [hpair] at h
      match a with
      | [] =>
        cases h
        exact .first [] p hb
      | [y] =>
        cases h
        exact .second [] p hb
      | y :: z :: a =>
        obtain ⟨hy, htail⟩ := List.cons.inj h
        obtain ⟨hz, hrest⟩ := List.cons.inj htail
        have hp := (ih hrest).cons b
        rwa [hpair, hy, hz] at hp

@[simp] theorem escAfter_escapeBytes_append (q s : Bytes) :
    escAfter false (escapeBytes q ++ s) = escAfter false s := by
  rw [escAfter_append, escAfter_escapeBytes]

@[simp] theorem unstuffed_escapeBytes_append (q s : Bytes) :
    unstuffed false (escapeBytes q ++ s) = q ++ unstuffed false s := by
  rw [unstuffed_append, unstuffed_escapeBytes, escAfter_escapeBytes]

theorem escAfter_literal {b : Byte} (h : b ≠ Config.escByte) (s : Bytes) :
    escAfter false (b :: s) = escAfter false s := by
  rw [escAfter_false_cons, beq_eq_false_iff_ne.mpr h]

theorem unstuffed_literal {b : Byte} (h : b ≠ Config.escByte) (s : Bytes) :
    unstuffed false (b :: s) = b :: unstuffed false s := if_neg h

@[simp] theorem escAfter_pair (x : Byte) (s : Bytes) :
    escAfter false (Config.escByte :: x :: s) = escAfter false s := rfl

@[simp] theorem unstuffed_pair (x : Byte) (s : Bytes) :
    unstuffed false (Config.escByte :: x :: s) = (x ^^^ Config.escXor) :: unstuffed false s := rfl

/-- The second byte of a canonical pair is not `7D`. -/
theorem xor_escXor_ne_escByte {b : Byte} (h : isReserved b = true) : b ^^^ Config.escXor ≠ Config.escByte := by
  obtain rfl | rfl | rfl := (isReserved_iff b).mp h <;> decide

/-- The frame of `p` with other bytes in its payload region. -/
def frameWithRegion (t : Byte) (p region : Bytes) : Bytes := headerBytes t p ++ region ++ [Config.endByte]

theorem encodeFrame_set {p : Bytes} (t : Byte) {k : Nat} (hk : k < (escapeBytes p).length) (y : Byte) :
    (encodeFrame t p).set (8 + k) y = frameWithRegion t p ((escapeBytes p).set k y) := by
  rw [encodeFrame, frameWithRegion, List.append_assoc, List.append_assoc,
    List.set_append_right _ _ (by simp), headerBytes_length, Nat.add_sub_cancel_left, List.set_append_left _ _ hk]

/-- The header still declares the length and the CRC of `p`. -/
theorem decodeFrame_frameWithRegion (t : Byte) {p : Bytes} (hp : p.length < 2 ^ 32) (region : Bytes) :
    decodeFrame (frameWithRegion t p region) =
      if escAfter false region then .err .escapeSequence
      else if (unstuffed false region).length ≠ p.length then .err .framing
      else if crc16 (unstuffed false region) ≠ crc16 p then .err .crc
      else .ok ⟨t, unstuffed false region⟩ := by
  have hlen : (BitVec.ofNat 32 p.length).toNat = p.length := Nat.mod_eq_of_lt hp
  rw [frameWithRegion, decodeFrame_of_parts (headerBytes_length t p) (headerBytes_start t p),
    headerBytes_length_field, headerBytes_crc_field, headerBytes_type, hlen]

/-- A region that un-stuffs to a payload of another length. -/
theorem decodeFrame_region_bad_length (t : Byte) {p region : Bytes} (hp : p.length < 2 ^ 32)
    (hesc : escAfter false region = false) (hlength : (unstuffed false region).length ≠ p.length) :
    decodeFrame (frameWithRegion t p region) = .err .framing := by
  rw [decodeFrame_frameWithRegion t hp, hesc]
  exact if_pos hlength

/-- A region that un-stuffs to the payload with one or two adjacent bytes changed: the CRC tells them apart (R110). -/
theorem decodeFrame_region_changed (t : Byte) {u m m' v region : Bytes} (hp : (u ++ (m ++ v)).length < 2 ^ 32)
    (hesc : escAfter false region = false) (hvalue : unstuffed false region = u ++ (m' ++ v))
    (hlen : m'.length = m.length) (hshort : m'.length ≤ 2) (hne : m' ≠ m) :
    decodeFrame (frameWithRegion t (u ++ (m ++ v)) region) = .err .crc := by
  have hcrc := crc16_ne_of_middle_ne u v hlen hshort hne
  have hlength : (u ++ (m' ++ v)).length = (u ++ (m ++ v)).length := by simp [hlen]
  rw [decodeFrame_frameWithRegion t hp, hesc, hvalue]
  exact (if_neg (not_not.mpr hlength)).trans (if_pos hcrc)

/-! The flips of R145 for the payload `q ++ b :: r`, at a byte that `b` was stuffed to. -/

section Flips

variable {q r : Bytes} {b : Byte} (t : Byte) (hp : (q ++ b :: r).length < 2 ^ 32)
include hp

/-- R145 (a): a literal becomes `7D`, which takes the next byte as its second, if there is one. -/
theorem decodeFrame_esc_created :
    ∃ kind, decodeFrame (frameWithRegion t (q ++ b :: r) (escapeBytes q ++ Config.escByte :: escapeBytes r)) =
      .err kind := by
  cases r with
  | nil =>
    refine ⟨.escapeSequence, ?_⟩
    rw [decodeFrame_frameWithRegion t hp, escAfter_escapeBytes_append]
    rfl
  | cons z r =>
    rw [escapeBytes_cons]
    obtain ⟨-, hbyte⟩ | ⟨hz, hpair, -⟩ := escapeByte_cases z
    · rw [hbyte]
      exact ⟨.framing, decodeFrame_region_bad_length t hp (by simp) (by simp)⟩
    · rw [hpair]
      have hx := xor_escXor_ne_escByte hz
      have hchanged : z ^^^ Config.escXor ≠ z := xor_bit_ne z (bit := 5) (by decide)
      refine ⟨.crc, decodeFrame_region_changed t (m := [b, z])
        (m' := [Config.escByte ^^^ Config.escXor, z ^^^ Config.escXor]) hp ?flag ?value rfl (Nat.le_refl 2)
        (by simp [hchanged])⟩
      case flag => simp [escAfter_literal hx]
      case value => simp [unstuffed_literal hx]

/-- R145 (b): the `7D` of a pair becomes another byte, and the two bytes are literals. -/
theorem decodeFrame_esc_destroyed {y : Byte} (hb : isReserved b = true) (hy : y ≠ Config.escByte) :
    decodeFrame (frameWithRegion t (q ++ b :: r)
      (escapeBytes q ++ y :: (b ^^^ Config.escXor) :: escapeBytes r)) = .err .framing := by
  have hx := xor_escXor_ne_escByte hb
  refine decodeFrame_region_bad_length t hp ?flag ?length
  case flag => simp [escAfter_literal hy, escAfter_literal hx]
  case length => simp [unstuffed_literal hy, unstuffed_literal hx]

/-- R145 (c): a literal becomes another literal. -/
theorem decodeFrame_literal_changed {y : Byte} (hy : y ≠ Config.escByte) (hne : y ≠ b) :
    decodeFrame (frameWithRegion t (q ++ b :: r) (escapeBytes q ++ y :: escapeBytes r)) = .err .crc :=
  decodeFrame_region_changed t (m := [b]) (m' := [y]) hp (by simp [escAfter_literal hy])
    (by simp [unstuffed_literal hy]) rfl (Nat.le_succ 1) (by simpa using hne)

/-- R145 (c): the second byte of a pair becomes another one, `7D` included. -/
theorem decodeFrame_second_changed {y : Byte} (hne : y ≠ b ^^^ Config.escXor) :
    decodeFrame (frameWithRegion t (q ++ b :: r)
      (escapeBytes q ++ Config.escByte :: y :: escapeBytes r)) = .err .crc := by
  have hchanged : y ^^^ Config.escXor ≠ b := fun h =>
    hne (by rw [← h, BitVec.xor_assoc, BitVec.xor_self, BitVec.xor_zero])
  exact decodeFrame_region_changed t (m := [b]) (m' := [y ^^^ Config.escXor]) hp (by simp) (by simp) rfl (Nat.le_succ 1)
    (by simpa using hchanged)

end Flips

/-- R145 for any other byte `y` in the place of a byte `x` of the stuffed payload: one case for each origin of `x`. -/
theorem decodeFrame_stuffedByte_changed (t : Byte) {p a c : Bytes} {x y : Byte} (hp : p.length < 2 ^ 32)
    (hx : StuffedByte p a x c) (hne : y ≠ x) :
    ∃ kind, decodeFrame (frameWithRegion t p (a ++ y :: c)) = .err kind ∧
      (x = Config.escByte → kind = .framing) ∧ (x ≠ Config.escByte → y ≠ Config.escByte → kind = .crc) := by
  cases hx with
  | literal q r hb =>
    have hx := ne_escByte_of_isReserved_eq_false hb
    by_cases hy : y = Config.escByte
    · obtain ⟨kind, hkind⟩ := decodeFrame_esc_created t hp
      exact ⟨kind, hy ▸ hkind, fun h => absurd h hx, fun _ h => absurd hy h⟩
    · exact ⟨.crc, decodeFrame_literal_changed t hp hy hne, fun h => absurd h hx, fun _ _ => rfl⟩
  | first q r hb => exact ⟨.framing, decodeFrame_esc_destroyed t hp hb hne, fun _ => rfl, fun h => absurd rfl h⟩
  | second q r hb =>
    rw [List.append_assoc]
    exact ⟨.crc, decodeFrame_second_changed t hp hne, fun h => absurd h (xor_escXor_ne_escByte hb), fun _ _ => rfl⟩

/-- Settles O28: the byte at offset `8 + k` is byte `k` of the stuffed payload (`byteAt_encodeFrame_payload`), and the
flip puts another byte in its place (`decodeFrame_stuffedByte_changed`). -/
theorem bitFlipNeverAccepted : Obligations.BitFlipNeverAccepted := by
  unfold Obligations.BitFlipNeverAccepted
  intro t p k bit s hp hk hbit f flipped g
  have hbyte : byteAt f (8 + k) = (escapeBytes p)[k] := by
    rw [byteAt_encodeFrame_payload t p hk, byteAt, List.getD_eq_getElem _ _ hk]
  have hsplit : escapeBytes p = (escapeBytes p).take k ++ byteAt f (8 + k) :: (escapeBytes p).drop (k + 1) := by
    rw [hbyte, List.getElem_cons_drop, List.take_append_drop]
  have hg : g = frameWithRegion t p ((escapeBytes p).take k ++ flipped :: (escapeBytes p).drop (k + 1)) := by
    rw [← List.set_eq_take_cons_drop flipped hk]
    exact encodeFrame_set t hk flipped
  rw [exec_decode, hg]
  obtain ⟨kind, hkind, hcases⟩ :=
    decodeFrame_stuffedByte_changed t hp (stuffedByte_of_split hsplit) (xor_bit_ne _ hbit)
  exact ⟨kind, by rw [hkind], hcases⟩

end Sys2Proof.Machine

namespace Sys2Proof.Machine

/-! The invariant (O2, O43) -/

/-- The parameter's range is the legal one (R10, R31). -/
theorem reset_cfgMaxPayload_legal : State.reset.engine.cfgMaxPayload.toNat ≤ Config.maxPayloadLimit := by
  rw [reset_cfgMaxPayload_toNat]
  exact Nat.le_of_lt_succ Config.maxPayloadSize.isLt

/-- Settles O2: after reset the buffer is empty, and `cfg_max_payload` is legal. -/
theorem resetStateMeetsInvariant : Obligations.ResetStateMeetsInvariant := by
  unfold Obligations.ResetStateMeetsInvariant
  have hidle : State.reset.engine.Idle := ⟨rfl, rfl⟩
  exact ⟨⟨.inl hidle, reset_cfgMaxPayload_legal, Nat.zero_le _⟩, hidle⟩

/-- Every instruction leaves `cfg_max_payload` legal: a write over the limit is refused (R203), and RESET gives the
parameter. -/
theorem exec_keeps_legal_config {i : Instr} {s t : State} (h : exec i s = .next t)
    (hs : s.engine.cfgMaxPayload.toNat ≤ Config.maxPayloadLimit) :
    t.engine.cfgMaxPayload.toNat ≤ Config.maxPayloadLimit := by
  by_cases hreset : i = .reset
  · subst hreset
    cases h
    exact reset_cfgMaxPayload_legal
  by_cases hwrite : ∃ reg v, i = .cfgWrite reg v
  · obtain ⟨reg, v, rfl⟩ := hwrite
    simp only [exec, execCfgWrite] at h
    cases hw : writeRegister s.engine reg v with
    | none => rw [hw] at h; cases h; exact hs
    | some e =>
      rw [hw] at h
      cases h
      obtain ⟨-, hv, rfl⟩ | ⟨-, rfl⟩ := writeRegister_some hw
      · exact hv
      · exact hs
  · rw [(exec_keeps_config h (fun reg v hi => hwrite ⟨reg, v, hi⟩) hreset).1]
    exact hs

/-- Every instruction leaves the buffer within the longest bound: a delivery ends within the bound in force, and nothing
else lengthens the buffer. -/
theorem exec_keeps_longest_bound {i : Instr} {s t : State} (h : exec i s = .next t)
    (hconfig : s.engine.cfgMaxPayload.toNat ≤ Config.maxPayloadLimit)
    (hs : s.engine.buf.length ≤ Config.maxPayloadLimit + Config.overhead) :
    t.engine.buf.length ≤ Config.maxPayloadLimit + Config.overhead := by
  by_cases hreset : i = .reset
  · subst hreset; cases h; exact Nat.zero_le _
  by_cases hsession : i = .sessionReset
  · subst hsession; cases h; exact Nat.zero_le _
  cases hd : deliveredBy i with
  | none => rw [(exec_keeps_buffer h hd hsession hreset).1]; exact hs
  | some delivery =>
    have hbound := bufferWithinBound i delivery.1 delivery.2 s t hd h
    have hlegal := exec_keeps_legal_config h hconfig
    simp only [Config.overhead]
    omega

theorem exec_keeps_inv {i : Instr} {s t : State} (h : exec i s = .next t) (hs : s.Inv) : t.Inv := by
  obtain ⟨hmode, hconfig, hlen⟩ := hs
  exact ⟨exec_keeps_idle_or_pending h hmode, exec_keeps_legal_config h hconfig,
    exec_keeps_longest_bound h hconfig hlen⟩

/-- Settles O43: an idle step changes nothing, and every instruction keeps each part of the invariant. -/
theorem stepKeepsInvariant : Obligations.StepKeepsInvariant := by
  unfold Obligations.StepKeepsInvariant
  intro s t hs h
  obtain ⟨-, rfl⟩ | ⟨r, rest, i, -, -, hi⟩ := step_next_cases h
  · exact hs
  · exact exec_keeps_inv hi hs

end Sys2Proof.Machine

namespace Sys2Proof.Machine

/-! A frame in chunks (O50) -/

@[simp] theorem Engine.append_nil (e : Engine) : e.append [] = e := by
  simp [Engine.append]

/-- FEED of an empty chunk on an Idle engine does nothing (R163). -/
theorem exec_feed_nil_of_idle {s : State} (hs : s.engine.Idle) (now : Time) :
    exec (.feed [] now) s = .next { s with response := .assembled [] [] } := by
  obtain ⟨hbuf, hpending⟩ := hs
  rw [exec_feed_live (by simp [Engine.Live, hpending]), Engine.append_nil, settle_nil hbuf, hbuf]

/-- FEED of each chunk, in order. -/
def feeds (cs : List (Bytes × Time)) : List Instr := cs.map fun c => .feed c.1 c.2

theorem feeds_append (cs ds : List (Bytes × Time)) : feeds (cs ++ ds) = feeds cs ++ feeds ds :=
  List.map_append

/-- The run of `is` from `s` completes, reports `out` and leaves the engine `e`. -/
def Runs (is : List Instr) (s : State) (out : List Event) (e : Engine) : Prop :=
  ∃ u rs, execAll is s = some (u, rs) ∧ eventsOf rs = out ∧ u.engine = e

theorem Runs.nil (s : State) : Runs [] s [] s.engine := ⟨s, [], rfl, rfl, rfl⟩

/-- One instruction, then the run of the others from the state it leaves. -/
theorem Runs.cons {i : Instr} {is : List Instr} {s u : State} {out out' : List Event} {e : Engine}
    (hi : exec i s = .next u) (hout : eventsOf [u.response] = out) (h : Runs is u out' e) :
    Runs (i :: is) s (out ++ out') e := by
  obtain ⟨v, rs, hrun, rfl, hv⟩ := h
  exact ⟨v, u.response :: rs, by rw [execAll_cons hi, hrun]; rfl, by rw [eventsOf_cons, hout], hv⟩

/-- A run, then another from the engine it leaves. -/
theorem Runs.append {is js : List Instr} {s : State} {out out' : List Event} {e e' : Engine} (h : Runs is s out e)
    (h' : ∀ u : State, u.engine = e → Runs js u out' e') : Runs (is ++ js) s (out ++ out') e' := by
  obtain ⟨u, rs, hrun, rfl, hu⟩ := h
  obtain ⟨v, rs', hrun', rfl, hv⟩ := h' u hu
  exact ⟨v, rs ++ rs', by rw [execAll_append hrun, hrun']; rfl, eventsOf_append rs rs', hv⟩

theorem execAll_keeps_requests {is : List Instr} {s t : State} {rs : List Response} (h : execAll is s = some (t, rs)) :
    t.requests = s.requests := by
  induction is generalizing s rs with
  | nil => cases h; rfl
  | cons i is ih =>
    obtain ⟨u, rs', hi, his, -⟩ := execAll_cons_eq_some h
    rw [ih his, exec_keeps_requests hi]

/-- Empty chunks on an Idle engine do nothing. -/
theorem runs_feeds_of_empty {cs : List (Bytes × Time)} {s : State} (hs : s.engine.Idle) (hcs : ∀ c ∈ cs, c.1 = []) :
    Runs (feeds cs) s [] s.engine := by
  induction cs generalizing s with
  | nil => exact .nil s
  | cons c cs ih =>
    obtain ⟨hc, hcs⟩ := List.forall_mem_cons.mp hcs
    have hfeed : exec (.feed c.1 c.2) s = .next { s with response := .assembled [] [] } := by
      rw [hc]; exact exec_feed_nil_of_idle hs c.2
    exact .cons hfeed rfl (ih (s := { s with response := .assembled [] [] }) hs hcs)

/-- A buffer that lacks the end of an encoded frame waits, when the frame is within the bound. -/
theorem waits_of_append_eq_frame {e : Engine} {t : Byte} {p rest : Bytes} (h : e.buf ++ rest = encodeFrame t p)
    (hrest : rest ≠ []) (hlen : (encodeFrame t p).length ≤ e.cfgMaxPayload.toNat + 10) : e.waits := by
  obtain ⟨init, x, rfl⟩ := List.eq_nil_or_concat' rest |>.resolve_left hrest
  rw [← List.append_assoc, encodeFrame] at h
  exact (waits_of_buf_eq_frame_init (e := e.append init) (List.append_inj_left' h rfl) hlen).of_append

theorem start_of_append_eq_frame {t : Byte} {a p rest : Bytes} (ha : a ≠ []) (h : a ++ rest = encodeFrame t p) :
    ∃ b, a = Config.startByte :: b := by
  obtain ⟨x, b, rfl⟩ := List.exists_cons_of_ne_nil ha
  exact ⟨b, by rw [(List.cons.inj h).1]⟩

/-- A chunk that completes an encoded frame emits it, and empty chunks behind it do nothing. -/
theorem runs_feeds_of_completing_chunk {c : Bytes × Time} {cs : List (Bytes × Time)} {t : Byte} {p : Bytes} {s : State}
    (hp : p.length < 2 ^ 32) (hframe : s.engine.buf ++ c.1 = encodeFrame t p) (hlive : s.engine.Live c.2)
    (hcs : ∀ d ∈ cs, d.1 = []) :
    Runs (feeds (c :: cs)) s [.frame ⟨t, p⟩] { s.engine with
      buf := [], pendingSince := none, counters := s.engine.counters.countFrame (encodeFrame t p).length } := by
  obtain ⟨u, hfeed, hout, hu⟩ := exec_completes_frame (i := .feed c.1 c.2) rfl hlive hp hframe
  have hidle : u.engine.Idle := by rw [hu]; exact ⟨rfl, rfl⟩
  exact .cons hfeed hout (hu ▸ runs_feeds_of_empty hidle hcs)

/-- Chunks that complete an encoded frame, live at each of them, emit it once. The timestamp is the engine's own or, if
it has none, the time of the first chunk. -/
theorem runs_feeds_of_frame {c : Bytes × Time} {cs : List (Bytes × Time)} {t : Byte} {p : Bytes} {s : State}
    (hp : p.length < 2 ^ 32) (hlen : (encodeFrame t p).length ≤ s.engine.cfgMaxPayload.toNat + 10)
    (hframe : s.engine.buf ++ (c :: cs).flatMap Prod.fst = encodeFrame t p) (hstart : s.engine.buf ++ c.1 ≠ [])
    (hlive : s.engine.Live c.2)
    (htime : ∀ d ∈ cs, (d.2 - s.engine.pendingSince.getD c.2).toNat ≤ s.engine.cfgTimeout.toNat) :
    Runs (feeds (c :: cs)) s [.frame ⟨t, p⟩] { s.engine with
      buf := [], pendingSince := none, counters := s.engine.counters.countFrame (encodeFrame t p).length } := by
  induction cs generalizing c s with
  | nil =>
    rw [List.flatMap_singleton] at hframe
    exact runs_feeds_of_completing_chunk hp hframe hlive (by simp)
  | cons d cs ih =>
    rw [List.flatMap_cons, ← List.append_assoc] at hframe
    by_cases hrest : (d :: cs).flatMap Prod.fst = []
    · rw [hrest, List.append_nil] at hframe
      exact runs_feeds_of_completing_chunk hp hframe hlive (List.flatMap_eq_nil_iff.mp hrest)
    · obtain ⟨b, hb⟩ := start_of_append_eq_frame hstart hframe
      obtain ⟨u, hfeed, hout, hu⟩ := exec_waits (i := .feed c.1 c.2) rfl hlive hb
        (waits_of_append_eq_frame (e := s.engine.append c.1) hframe hrest hlen)
      obtain ⟨hd, hcs⟩ := List.forall_mem_cons.mp htime
      have hulive : u.engine.Live d.2 := by
        rw [hu]
        rintro _ ⟨⟩
        exact hd
      have hrun := ih (c := d) (s := u) (by rw [hu]; exact hlen) (by rw [hu]; exact hframe)
        (by rw [hu]; exact List.append_ne_nil_of_left_ne_nil hstart _) hulive (by rw [hu]; exact hcs)
      rw [hu] at hrun
      exact .cons hfeed hout hrun

/-- An Idle engine has nothing to clear. -/
theorem Engine.Idle.eq_with_counters {e : Engine} (h : e.Idle) (c : Counters) :
    { e with buf := [], pendingSince := none, counters := c } = { e with counters := c } := by
  obtain ⟨hbuf, hpending⟩ := h
  rw [← hbuf, ← hpending]

/-- Settles O50: the empty chunks before the first byte do nothing (`runs_feeds_of_empty`), and the chunks from it on
complete the frame (`runs_feeds_of_frame`). -/
theorem chunkBoundaryIndependence : Obligations.ChunkBoundaryIndependence := by
  unfold Obligations.ChunkBoundaryIndependence
  intro t p pre post first s hp hidle hframe hpre hfirst htime hlen
  obtain ⟨hbuf, hpending⟩ := id hidle
  rw [List.flatMap_append, List.flatMap_eq_nil_iff.mpr hpre, List.nil_append] at hframe
  have hrun : Runs (feeds pre ++ feeds (first :: post)) s ([] ++ [.frame ⟨t, p⟩]) { s.engine with
      counters := s.engine.counters.countFrame (encodeFrame t p).length } := by
    refine (runs_feeds_of_empty hidle hpre).append fun u hu => ?_
    rw [← hidle.eq_with_counters, ← hu]
    exact runs_feeds_of_frame hp (by rw [hu]; exact hlen) (by rw [hu, hbuf]; exact hframe)
      (by rw [hu, hbuf]; exact hfirst) (by simp [Engine.Live, hu, hpending]) (by rw [hu, hpending]; exact htime)
  obtain ⟨u, rs, hexec, hout, hu⟩ := hrun
  rw [← feeds_append] at hexec
  exact ⟨u, rs, hexec, hout, execAll_keeps_requests hexec, hu⟩

end Sys2Proof.Machine

namespace Sys2Proof.Machine

/-! How a stream is split (O52) -/

/-- What the rules of the scan loop find in a byte sequence when no bound, no clock and no counter is looked at: the
frames, and the bytes left to wait. A byte that is no `START` is skipped (R164, R165), a frame is taken (R170), and a failed
candidate loses its `START` alone (R171), since the bytes to the next one are skipped. -/
inductive Finds : Bytes → List Frame → Bytes → Prop where
  | nil : Finds [] [] []
  | skip {x : Byte} {b rest : Bytes} {fs : List Frame} : x ≠ Config.startByte → Finds b fs rest → Finds (x :: b) fs rest
  | wait {b : Bytes} : endScan (Config.startByte :: b) = none →
      Finds (Config.startByte :: b) [] (Config.startByte :: b)
  | accept {b rest : Bytes} {i : Nat} {f : Frame} {fs : List Frame} : endScan (Config.startByte :: b) = some i →
      decodeFrame ((Config.startByte :: b).take (i + 1)) = .ok f →
      Finds ((Config.startByte :: b).drop (i + 1)) fs rest → Finds (Config.startByte :: b) (f :: fs) rest
  | reject {b rest : Bytes} {i : Nat} {k : ErrorKind} {fs : List Frame} : endScan (Config.startByte :: b) = some i →
      decodeFrame ((Config.startByte :: b).take (i + 1)) = .err k →
      Finds b fs rest → Finds (Config.startByte :: b) fs rest

/-- A byte sequence determines what is found in it. -/
theorem Finds.unique {b rest rest' : Bytes} {fs fs' : List Frame} (h : Finds b fs rest) (h' : Finds b fs' rest') :
    fs = fs' ∧ rest = rest' := by
  induction h generalizing fs' with
  | nil => cases h'; exact ⟨rfl, rfl⟩
  | skip hx _ ih =>
    cases h' with
    | skip _ h' => exact ih h'
    | wait | accept | reject => exact absurd rfl hx
  | wait hnone =>
    cases h' with
    | skip hx => exact absurd rfl hx
    | wait => exact ⟨rfl, rfl⟩
    | accept hi | reject hi => cases hnone.symm.trans hi
  | accept hi hd _ ih =>
    cases h' with
    | skip hx => exact absurd rfl hx
    | wait hnone => cases hnone.symm.trans hi
    | accept hi' hd' h' =>
      cases hi.symm.trans hi'
      cases hd.symm.trans hd'
      obtain ⟨rfl, rfl⟩ := ih h'
      exact ⟨rfl, rfl⟩
    | reject hi' hd' =>
      cases hi.symm.trans hi'
      cases hd.symm.trans hd'
  | reject hi hd _ ih =>
    cases h' with
    | skip hx => exact absurd rfl hx
    | wait hnone => cases hnone.symm.trans hi
    | accept hi' hd' =>
      cases hi.symm.trans hi'
      cases hd.symm.trans hd'
    | reject _ _ h' => exact ih h'

theorem endScan_lt_length {s : Bytes} {i : Nat} (h : endScan s = some i) : i < s.length := by
  obtain ⟨_, _, _, rfl, hl, rfl, -, -⟩ := endScan_some h
  simp [hl]

/-- More bytes change nothing that was found: the search goes on from the bytes that waited (R168, "never on where chunk
boundaries fell"). -/
theorem Finds.append {b mid c rest : Bytes} {fs fs' : List Frame} (h : Finds b fs mid)
    (h' : Finds (mid ++ c) fs' rest) : Finds (b ++ c) (fs ++ fs') rest := by
  induction h with
  | nil => exact h'
  | skip hx _ ih => exact .skip hx (ih h')
  | wait => exact h'
  | accept hi hd _ ih =>
    have hlen := endScan_lt_length hi
    have hrest := ih h'
    rw [← List.drop_append_of_le_length hlen] at hrest
    exact .accept (endScan_append hi c) ((congrArg decodeFrame (List.take_append_of_le_length hlen)).trans hd) hrest
  | reject hi hd _ ih =>
    have hlen := endScan_lt_length hi
    exact .reject (endScan_append hi c) ((congrArg decodeFrame (List.take_append_of_le_length hlen)).trans hd) (ih h')

/-- A run with no `START` is skipped. -/
theorem Finds.skip_noise {a b rest : Bytes} {fs : List Frame} (ha : Config.startByte ∉ a) (h : Finds b fs rest) :
    Finds (a ++ b) fs rest := by
  induction a with
  | nil => exact h
  | cons x a ih =>
    rw [List.mem_cons, not_or] at ha
    exact .skip (Ne.symm ha.1) (ih ha.2)

theorem Finds.of_toStart {b rest : Bytes} {fs : List Frame} (h : Finds (toStart b) fs rest) : Finds b fs rest := by
  rw [← takeWhile_append_toStart b]
  exact h.skip_noise (startByte_not_mem_takeWhile b)

@[simp] theorem framesOf_nil : framesOf [] = [] := rfl
@[simp] theorem framesOf_error_cons (k : ErrorKind) (out : List Event) :
    framesOf (.error k :: out) = framesOf out := rfl

theorem framesOf_append (out out' : List Event) : framesOf (out ++ out') = framesOf out ++ framesOf out' :=
  List.filterMap_append

/-- A frame that waits holds no END. -/
theorem Engine.waits.endScan_eq_none {e : Engine} (h : e.waits) : endScan e.buf = none := by
  obtain hshort | ⟨hnone, -⟩ := h
  · exact endScan_short (Nat.le_of_lt hshort)
  · exact hnone

/-- Without an overflow the scan loop emits the frames that `Finds` gives, and leaves the same bytes. -/
theorem settle_finds {now : Time} {e : Engine} (h : .error .bufferOverflow ∉ (settle now e).out) :
    Finds e.buf (framesOf (settle now e).out) (settle now e).engine.buf := by
  revert h
  refine settle_induction (now := now)
    (P := fun e e' out => .error .bufferOverflow ∉ out → Finds e.buf (framesOf out) e'.buf)
    ?idle ?noise ?skip ?wait ?tooLong ?accept ?reject e
  case idle => intro e hb _; rw [hb]; exact .nil
  case noise => intro e _ hs _; simpa using Finds.nil.skip_noise hs
  case skip =>
    intro e a b e' out hb _ hs ih h
    rw [hb]
    exact (ih (List.not_mem_of_not_mem_cons h)).skip_noise hs
  case wait =>
    intro e b hb hw _
    have hnone := hw.endScan_eq_none
    rw [hb] at hnone
    rw [Engine.wait_buf, hb]
    exact .wait hnone
  case tooLong => intro e b _ _ _ _ h; exact absurd (List.mem_singleton.mpr rfl) h
  case accept =>
    intro e b i f e' out hb hi hd ih h
    rw [hb] at hi hd ih ⊢
    exact .accept hi hd (ih (List.not_mem_of_not_mem_cons h))
  case reject =>
    intro e b i k e' out hb hi hd ih h
    rw [hb] at hi hd ⊢
    exact .reject hi hd (ih (List.not_mem_of_not_mem_cons h)).of_toStart

/-- One FEED with no timeout and no overflow. -/
theorem assemble_finds {chunk : Bytes} {now : Time} {e : Engine}
    (htimeout : .error .timeout ∉ (assemble chunk now e).out)
    (hoverflow : .error .bufferOverflow ∉ (assemble chunk now e).out) :
    Finds (e.buf ++ chunk) (framesOf (assemble chunk now e).out) (assemble chunk now e).engine.buf := by
  cases hx : expired now e with
  | true => rw [assemble_expired hx] at htimeout; simp at htimeout
  | false =>
    rw [assemble_live hx] at hoverflow ⊢
    exact settle_finds hoverflow

/-- A run of FEEDs with no timeout and no overflow, on an engine that the bytes `received` have brought to its
buffer: the frames before and those of the run are the frames of the whole stream. -/
theorem execAll_feeds_finds {cs : List (Bytes × Time)} {s t : State} {rs : List Response} {received : Bytes}
    {fs : List Frame} (h : execAll (feeds cs) s = some (t, rs)) (hs : Finds received fs s.engine.buf)
    (hout : ∀ v ∈ eventsOf rs, v ≠ .error .timeout ∧ v ≠ .error .bufferOverflow) :
    Finds (received ++ cs.flatMap Prod.fst) (fs ++ framesOf (eventsOf rs)) t.engine.buf := by
  induction cs generalizing s rs received fs with
  | nil =>
    cases h
    simpa [eventsOf] using hs
  | cons c cs ih =>
    obtain ⟨u, rs', hfeed, hrun, rfl⟩ := execAll_cons_eq_some h
    rw [exec_of_deliveredBy (i := .feed c.1 c.2) rfl, deliver_eq] at hfeed
    cases hfeed
    rw [eventsOf_cons, eventsOf_assembled] at hout ⊢
    obtain ⟨hfirst, hrest⟩ := List.forall_mem_append.mp hout
    have hchunk := assemble_finds (fun hv => (hfirst _ hv).1 rfl) (fun hv => (hfirst _ hv).2 rfl)
    rw [framesOf_append, List.flatMap_cons, ← List.append_assoc, ← List.append_assoc]
    exact ih hrun (hs.append hchunk) hrest

/-- Settles O52: both runs find what `Finds` gives in the one byte sequence (`execAll_feeds_finds`), and that is
unique. -/
theorem rechunkingEmitsSameFrames : Obligations.RechunkingEmitsSameFrames := by
  unfold Obligations.RechunkingEmitsSameFrames
  intro cs cs' s s' t t' rs rs' ⟨hbuf, _⟩ ⟨hbuf', _⟩ hsame hrun hrun' hout
  obtain ⟨hout, hout'⟩ := List.forall_mem_append.mp hout
  have hfinds := execAll_feeds_finds (received := []) (fs := []) hrun (hbuf ▸ .nil) hout
  have hfinds' := execAll_feeds_finds (received := []) (fs := []) hrun' (hbuf' ▸ .nil) hout'
  rw [← hsame] at hfinds'
  exact hfinds.unique hfinds'

end Sys2Proof.Machine

namespace Sys2Proof.Machine

/-! The END scan by positions (O31) -/

/-- How many `ESC` stand one behind the other at the end of `s`. -/
def escRun (s : Bytes) : Nat := (s.reverse.takeWhile (· == Config.escByte)).length

theorem escRun_append_singleton (s : Bytes) (b : Byte) :
    escRun (s ++ [b]) = if b = Config.escByte then escRun s + 1 else 0 := by
  by_cases hb : b = Config.escByte <;> simp [escRun, hb]

theorem escAfter_append_singleton (s : Bytes) (b : Byte) :
    escAfter false (s ++ [b]) = (!escAfter false s && b == Config.escByte) := by
  rw [escAfter_append]
  cases escAfter false s <;> simp

/-- The flag of R168 is the parity of the run of `ESC` that ends there: every second one is itself escaped. -/
theorem escAfter_eq_decide_odd_escRun (s : Bytes) : escAfter false s = decide (escRun s % 2 = 1) := by
  induction s using List.reverseRecOn with
  | nil => rfl
  | append_singleton s b ih =>
    rw [escAfter_append_singleton, escRun_append_singleton, ih]
    by_cases hb : b = Config.escByte
    · rcases Nat.mod_two_eq_zero_or_one (escRun s) with h | h <;> simp [hb, h, Nat.add_mod]
    · simp [hb]

/-- An END behind the header that no open `ESC` stands before. -/
def UnescapedEndAt (buf : Bytes) (i : Nat) : Prop :=
  8 ≤ i ∧ i < buf.length ∧ byteAt buf i = Config.endByte ∧ escAfter false ((buf.take i).drop 8) = false

/-- What the END scan finds is an unescaped END. -/
theorem unescapedEndAt_of_endScan {buf : Bytes} {i : Nat} (h : endScan buf = some i) : UnescapedEndAt buf i := by
  obtain ⟨hd, a, b, rfl, hl, rfl, -, hesc⟩ := endScan_some h
  have hlen : (hd ++ a).length = 8 + a.length := by simp [hl]
  refine ⟨Nat.le_add_right _ _, by simp [hl], ?_, ?_⟩
  · rw [← hlen]; exact byteAt_append_right (hd ++ a) _ 0
  · rw [← hlen, List.take_left, ← hl, List.drop_left]; exact hesc

/-- An unescaped END stops the END scan, there or before. -/
theorem endScan_of_unescapedEndAt {buf : Bytes} {j : Nat} (h : UnescapedEndAt buf j) :
    ∃ i ≤ j, endScan buf = some i := by
  obtain ⟨hj, hlen, hend, hesc⟩ := h
  have hsplit : buf = buf.take j ++ Config.endByte :: buf.drop (j + 1) := by
    rw [← hend, byteAt, List.getD_eq_getElem buf 0 hlen, ← List.drop_eq_getElem_cons hlen, List.take_append_drop]
  have hregion : buf.drop 8 = (buf.take j).drop 8 ++ Config.endByte :: buf.drop (j + 1) := by
    conv_lhs => rw [hsplit]
    exact List.drop_append_of_le_length (by rw [List.length_take]; omega)
  have hscan : endScan buf = endScanFrom false 8 ((buf.take j).drop 8 ++ Config.endByte :: buf.drop (j + 1)) :=
    congrArg (endScanFrom false 8) hregion
  have hlength : ((buf.take j).drop 8).length = j - 8 := by rw [List.length_drop, List.length_take]; omega
  cases hi : endScanFrom false 8 ((buf.take j).drop 8) with
  | some i =>
    obtain ⟨a, b, ha, rfl, -⟩ := endScanFrom_some hi
    have hle : a.length < ((buf.take j).drop 8).length := by simp [ha]
    exact ⟨8 + a.length, by omega, hscan.trans (endScanFrom_append_some hi _)⟩
  | none =>
    refine ⟨j, Nat.le_refl j, ?_⟩
    rw [hscan, endScanFrom_append_none hi, hesc, hlength, Nat.add_sub_cancel' hj]
    rfl

/-- The END scan finds the least unescaped END. -/
theorem endScan_eq_some_iff {buf : Bytes} {i : Nat} :
    endScan buf = some i ↔ UnescapedEndAt buf i ∧ ∀ j < i, ¬ UnescapedEndAt buf j := by
  constructor
  · intro h
    refine ⟨unescapedEndAt_of_endScan h, fun j hj hend => ?_⟩
    obtain ⟨i', hle, h'⟩ := endScan_of_unescapedEndAt hend
    cases h.symm.trans h'
    omega
  · rintro ⟨hend, hleast⟩
    obtain ⟨i', hle, h'⟩ := endScan_of_unescapedEndAt hend
    have hnot : ¬ i' < i := fun hlt => hleast i' hlt (unescapedEndAt_of_endScan h')
    rw [h', Nat.le_antisymm hle (Nat.not_lt.mp hnot)]

/-- An unescaped END by the parity of the run of `ESC` before it. -/
theorem unescapedEndAt_iff {buf : Bytes} {i : Nat} :
    UnescapedEndAt buf i ↔
      8 ≤ i ∧ i < buf.length ∧ byteAt buf i = Config.endByte ∧ escRun ((buf.take i).drop 8) % 2 = 0 := by
  rw [UnescapedEndAt, escAfter_eq_decide_odd_escRun, decide_eq_false_iff_not, ← ne_eq, Nat.mod_two_ne_one]

/-- Settles O31: the END scan finds the least unescaped END (`endScan_eq_some_iff`), so each `7F` before it stands behind
an odd run. -/
theorem endScanFindsFirstUnescapedEnd : Obligations.EndScanFindsFirstUnescapedEnd := by
  unfold Obligations.EndScanFindsFirstUnescapedEnd
  intro buf i run
  have hrun : ∀ k, run k = escRun ((buf.take k).drop 8) := fun _ => rfl
  simp only [hrun, endScan_eq_some_iff, unescapedEndAt_iff, and_assoc]
  refine and_congr_right fun hi => and_congr_right fun hlen => and_congr_right fun _ => and_congr_right fun _ => ?_
  constructor
  · intro h j hj hji hend
    exact Nat.mod_two_ne_zero.mp fun heven => h j hji ⟨hj, by omega, hend, heven⟩
  · rintro h j hji ⟨hj, -, hend, heven⟩
    have hodd := h j hj hji hend
    omega

end Sys2Proof.Machine

namespace Sys2Proof.Machine

/-! FEED, rule by rule (O32, O33, O35 to O41) -/

theorem exec_feed (chunk : Bytes) (now : Time) (s : State) :
    exec (.feed chunk now) s = .next { s with
      engine := (assemble chunk now s.engine).engine
      response := .assembled (assemble chunk now s.engine).out (assemble chunk now s.engine).engine.buf } := rfl

/-- Settles O32: the number by `decode_encode`, the completion by `exec_feed`, the frame by `assemble_keeps`. -/
theorem feedCompletes : Obligations.FeedCompletes := by
  unfold Obligations.FeedCompletes
  intro chunk now s
  exact ⟨decode_encode (i := .feed chunk now) rfl, _, _, exec_feed chunk now s, assemble_keeps chunk now s.engine⟩

/-- Settles O33: TICK delivers the empty chunk. -/
theorem tickIsEmptyFeed : Obligations.TickIsEmptyFeed := by
  unfold Obligations.TickIsEmptyFeed
  exact fun now s => ⟨decode_encode (i := .tick now) rfl, exec_eq_feed_of_deliveredBy (i := .tick now) rfl s⟩

/-- A FEED that reports one event and then does what a FEED on the engine `e` does. -/
theorem exec_feed_continues {chunk chunk' : Bytes} {now : Time} {s : State} {e : Engine} {v : Event}
    (h : assemble chunk now s.engine = (assemble chunk' now e).after [v]) :
    ∃ (out : List Event) (t : State),
      exec (.feed chunk' now) { s with engine := e } = .next { t with response := .assembled out t.engine.buf } ∧
      exec (.feed chunk now) s = .next { t with response := .assembled (v :: out) t.engine.buf } := by
  refine ⟨_, { s with engine := (assemble chunk' now e).engine }, exec_feed chunk' now _, ?_⟩
  rw [exec_feed, h]
  rfl

/-- The same on a live engine, where the event comes from the scan loop. -/
theorem exec_feed_live_continues {chunk : Bytes} {now : Time} {s : State} {e : Engine} {v : Event}
    (hlive : s.engine.Live now) (he : e.Live now)
    (h : settle now (s.engine.append chunk) = (settle now e).after [v]) :
    ∃ (out : List Event) (t : State),
      exec (.feed [] now) { s with engine := e } = .next { t with response := .assembled out t.engine.buf } ∧
      exec (.feed chunk now) s = .next { t with response := .assembled (v :: out) t.engine.buf } := by
  apply exec_feed_continues
  rw [assemble_live (expired_of_live hlive), assemble_live (expired_of_live he), Engine.append_nil, h]

/-- What R167 keeps: behind a run with no `START` stands nothing, or the next `START`. -/
theorem toStart_noise_append {a rest : Bytes} (ha : Config.startByte ∉ a)
    (hrest : rest = [] ∨ ∃ b, rest = Config.startByte :: b) : toStart (a ++ rest) = rest := by
  rw [toStart_append_of_not_mem ha]
  obtain rfl | ⟨b, rfl⟩ := hrest
  · exact toStart_nil
  · exact toStart_cons_start b

/-- Settles O35: the expiry is `assemble_expired`, and the engine it leaves has no pending frame. -/
theorem feedTimesOut : Obligations.FeedTimesOut := by
  unfold Obligations.FeedTimesOut
  intro chunk dropped rest now t0 s hpending htime hbuf hne hnoise hrest
  have hx : expired now s.engine = true := by
    simp only [expired, hpending]
    exact decide_eq_true htime
  have hdropped : toStart s.engine.buf.tail = rest := by
    rw [hbuf, List.tail_append_of_ne_nil hne]
    exact toStart_noise_append hnoise hrest
  apply exec_feed_continues
  rw [assemble_expired hx, ← hdropped, assemble_live (expired_of_none rfl)]
  rfl

/-- Settles O36: `settle_nil` and `settle_noise`. -/
theorem feedWithoutStart : Obligations.FeedWithoutStart := by
  unfold Obligations.FeedWithoutStart
  intro chunk now s hlive hs
  rw [exec_feed_live hlive]
  refine ⟨fun hnil => ?_, fun hne => ?_⟩
  · obtain ⟨hbuf, rfl⟩ := List.append_eq_nil_iff.mp hnil
    rw [Engine.append_nil, settle_nil hbuf, hbuf]
  · rw [settle_noise hne hs]
    rfl

/-- Settles O37: `settle_skip`. -/
theorem feedDiscardsNoise : Obligations.FeedDiscardsNoise := by
  unfold Obligations.FeedDiscardsNoise
  intro chunk noise b now s hlive hbuf hne hs
  exact exec_feed_live_continues hlive hlive (settle_skip hbuf hne hs)

/-- Settles O38: `settle_wait`. -/
theorem feedWaits : Obligations.FeedWaits := by
  unfold Obligations.FeedWaits
  intro chunk b now s hlive hbuf hwait
  rw [← hbuf] at hwait
  have hw : (s.engine.append chunk).waits := hwait.imp_right fun ⟨hnone, hbound⟩ =>
    ⟨hnone, Engine.overBound_eq_false_iff.mpr hbound⟩
  rw [exec_feed_live hlive, settle_wait hbuf hw, ← hbuf]
  rfl

/-- Settles O39: `settle_overflow`. -/
theorem feedOverflows : Obligations.FeedOverflows := by
  unfold Obligations.FeedOverflows
  intro chunk b now s hlive hbuf hlen hnone hbound
  rw [← hbuf] at hlen hnone hbound
  have hsettle := settle_overflow (now := now) (e := s.engine.append chunk) hbuf (Nat.not_lt.mpr hlen) hnone
    (decide_eq_true hbound)
  rw [exec_feed_live hlive, hsettle]
  rfl

/-- Settles O40: `settle_accept`. -/
theorem feedAcceptsFrame : Obligations.FeedAcceptsFrame := by
  unfold Obligations.FeedAcceptsFrame
  intro chunk b now s i f hlive hbuf hi hd
  rw [← hbuf] at hi hd ⊢
  exact exec_feed_live_continues hlive (by simp [Engine.Live]) (settle_accept hbuf hi hd)

/-- The counter of a kind DECODE can give here (R171). -/
theorem countError_framing_or_crc (c : Counters) {kind : ErrorKind} (h : kind = .framing ∨ kind = .crc) :
    c.countError kind = if kind = .framing then { c with framingErrors := satInc c.framingErrors 1 }
      else { c with crcErrors := satInc c.crcErrors 1 } := by
  obtain rfl | rfl := h <;> rfl

/-- Settles O41: the kinds by `decodeFrame_slice_err`, the rest by `settle_reject`. -/
theorem feedRejectsFrame : Obligations.FeedRejectsFrame := by
  unfold Obligations.FeedRejectsFrame
  intro chunk x rest now s i kind hlive hbuf hx hrest hi hd
  have hkind := decodeFrame_slice_err rfl hi hd
  refine ⟨hkind, ?_⟩
  rw [← countError_framing_or_crc _ hkind]
  rw [← hbuf] at hi hd
  have hreject := settle_reject (now := now) (e := s.engine.append chunk) hbuf hi hd
  rw [toStart_noise_append hx hrest] at hreject
  exact exec_feed_live_continues hlive (by simp [Engine.Live]) hreject

/-! The scan loop's passes (O42) -/

/-- A loop with more passes in hand than bytes in the buffer ends by itself (R183). -/
theorem passes_scanLoop {now : Time} {n : Nat} {w : Scan} (h : w.engine.buf.length < n) :
    ∃ k ≤ n, Passes now k w (scanLoop now n w) := by
  induction n generalizing w with
  | zero => exact absurd h (Nat.not_lt_zero _)
  | succ n ih =>
    rw [scanLoop]
    cases hp : pass now w with
    | stop w' => exact ⟨1, by omega, .last hp⟩
    | again w' =>
      have hshorter := pass_again_shorter hp
      obtain ⟨k, hk, hpasses⟩ := ih (w := w') (by omega)
      exact ⟨k + 1, by omega, .more hp hpasses⟩

/-- Settles O42: FEED's bound is one more than the bytes of the buffer. -/
theorem scanLoopTerminates : Obligations.ScanLoopTerminates := by
  unfold Obligations.ScanLoopTerminates
  exact fun chunk now e => passes_scanLoop (Nat.lt_succ_self _)

/-! A delivery of nothing (O46) -/

/-- The scan loop has nothing to do on an engine between operations that is within its bound. -/
theorem settle_of_idle_or_pending {now : Time} {e : Engine} (h : e.Idle ∨ e.Pending) (hbound : e.overBound = false) :
    settle now e = ⟨e, []⟩ := by
  obtain ⟨hbuf, -⟩ | h := h
  · exact settle_nil hbuf
  · obtain ⟨b, hbuf⟩ := h.exists_buf_eq
    obtain ⟨-, hpending, hnone⟩ := h
    obtain ⟨t, ht⟩ := Option.isSome_iff_exists.mp hpending
    have hwait : e.wait now = e := by rw [Engine.wait, ht, Option.getD_some, ← ht]
    rw [settle_wait hbuf (hnone.imp_right fun hnone => ⟨hnone, hbound⟩), hwait]

/-- Settles O46: the engine with the empty chunk is the engine, and the scan loop leaves it. -/
theorem emptyDeliveryChangesNothing : Obligations.EmptyDeliveryChangesNothing := by
  unfold Obligations.EmptyDeliveryChangesNothing
  intro now s ⟨hmode, _, _⟩ hlive hbound
  have hfeed : exec (.feed [] now) s = .next { s with response := .assembled [] s.engine.buf } := by
    rw [exec_feed_live hlive, Engine.append_nil,
      settle_of_idle_or_pending hmode (Engine.overBound_eq_false_iff.mpr hbound)]
  exact ⟨hfeed, hfeed⟩

/-! Noise and frames from Idle (O51, O53) -/

theorem Engine.Idle.live {e : Engine} (h : e.Idle) (now : Time) : e.Live now := by
  simp [Engine.Live, h.2]

/-- A chunk of noise on an Idle engine (R165). -/
theorem exec_feed_noise_of_idle {chunk : Bytes} {s : State} (hs : s.engine.Idle) (hne : chunk ≠ [])
    (hnoise : 0x7E ∉ chunk) (now : Time) :
    exec (.feed chunk now) s = .next { s with
      engine := { s.engine with
        counters := { s.engine.counters with framingErrors := satInc s.engine.counters.framingErrors 1 } }
      response := .assembled [.error .framing] [] } := by
  obtain ⟨⟨crc, buf, pendingSince, counters, maxPayload, timeout⟩, requests, response⟩ := s
  obtain ⟨rfl, rfl⟩ := hs
  exact (feedWithoutStart chunk now ⟨⟨crc, [], none, counters, maxPayload, timeout⟩, requests, response⟩
    (Engine.Idle.live ⟨rfl, rfl⟩ now) hnoise).2 hne

/-- Chunks of noise on an Idle engine cost one FramingError each. -/
theorem runs_feeds_of_noise {gs : List (Bytes × Time)} {s : State} (hs : s.engine.Idle)
    (hgs : ∀ g ∈ gs, g.1 ≠ [] ∧ 0x7E ∉ g.1) :
    Runs (feeds gs) s (List.replicate gs.length (.error .framing)) { s.engine with
      counters := { s.engine.counters with
        framingErrors := satInc s.engine.counters.framingErrors gs.length } } := by
  induction gs generalizing s with
  | nil => rw [List.length_nil, satInc_zero]; exact .nil s
  | cons g gs ih =>
    obtain ⟨⟨hne, hnoise⟩, hgs⟩ := List.forall_mem_cons.mp hgs
    have hrest := ih (s := { s with
      engine := { s.engine with
        counters := { s.engine.counters with framingErrors := satInc s.engine.counters.framingErrors 1 } }
      response := .assembled [.error .framing] [] }) hs hgs
    rw [satInc_satInc, Nat.add_comm] at hrest
    exact .cons (exec_feed_noise_of_idle hs hne hnoise g.2) rfl hrest

/-- An encoded frame in one chunk on an Idle engine. -/
theorem runs_feed_frame_of_idle {s : State} {p : Bytes} (hs : s.engine.Idle) (hp : p.length < 2 ^ 32) (t : Byte)
    (now : Time) :
    Runs (feeds [(encodeFrame t p, now)]) s [.frame ⟨t, p⟩] { s.engine with
      counters := s.engine.counters.countFrame (encodeFrame t p).length } := by
  rw [← hs.eq_with_counters]
  exact runs_feeds_of_completing_chunk hp (by rw [hs.1, List.nil_append]) (hs.live now) (by simp)

/-- Noise and an encoded frame in one chunk, on an Idle engine. -/
theorem settle_noise_encodeFrame {now : Time} {e : Engine} {t : Byte} {g p : Bytes} (hp : p.length < 2 ^ 32)
    (hg : g ≠ []) (hnoise : Config.startByte ∉ g) (hbuf : e.buf = g ++ encodeFrame t p) :
    settle now e = ⟨{ e with
      buf := [], pendingSince := none
      counters := (e.counters.countError .framing).countFrame (encodeFrame t p).length },
      [.error .framing, .frame ⟨t, p⟩]⟩ := by
  rw [settle_skip hbuf hg hnoise, settle_encodeFrame (rest := []) hp (List.append_nil _).symm, settle_nil rfl]
  rfl

/-- Settles O51: in one chunk by `settle_noise_encodeFrame`; in chunks of its own the noise costs what
`runs_feeds_of_noise` says, and leaves the engine Idle for the frame. -/
theorem garbageResync : Obligations.GarbageResync := by
  unfold Obligations.GarbageResync
  intro t p s hp hidle
  refine ⟨?oneChunk, ?ownChunks⟩
  case oneChunk =>
    intro g now hg hnoise
    have hchunk : (s.engine.append (g ++ encodeFrame t p)).buf = g ++ encodeFrame t p := by simp [hidle.1]
    rw [exec_feed_live (hidle.live now), settle_noise_encodeFrame hp hg hnoise hchunk, ← hidle.eq_with_counters]
    rfl
  case ownChunks =>
    intro gs now hgs
    obtain ⟨u, rs, hrun, hout, hu⟩ := (runs_feeds_of_noise hidle hgs).append fun v hv =>
      hv ▸ runs_feed_frame_of_idle (s := v) (by rw [hv]; exact hidle) hp t now
    refine ⟨u, rs, hrun, hout, ?_, ?_⟩
    · rw [hu]; exact hidle
    · rw [hu]; exact satInc_toNat _ _

/-- The wire bytes of a frame. -/
def Frame.wire (f : Frame) : Bytes := encodeFrame f.messageType f.payload

/-- What the counters are after frames are accepted, one after another. -/
def Counters.countFrames (c : Counters) (fs : List Frame) : Counters :=
  fs.foldl (fun c f => c.countFrame f.wire.length) c

@[simp] theorem Counters.countFrames_nil (c : Counters) : c.countFrames [] = c := rfl
@[simp] theorem Counters.countFrames_cons (c : Counters) (f : Frame) (fs : List Frame) :
    c.countFrames (f :: fs) = (c.countFrame f.wire.length).countFrames fs := rfl

theorem Counters.countFrames_messagesReceived (c : Counters) (fs : List Frame) :
    (c.countFrames fs).messagesReceived = satInc c.messagesReceived fs.length := by
  induction fs generalizing c with
  | nil => simp
  | cons f fs ih => simp [ih, Nat.add_comm]

theorem Counters.countFrames_bytesReceived (c : Counters) (fs : List Frame) :
    (c.countFrames fs).bytesReceived = satInc c.bytesReceived (fs.map fun f => f.wire.length).sum := by
  induction fs generalizing c with
  | nil => simp
  | cons f fs ih => simp [ih]

theorem Counters.countFrames_ofKind (c : Counters) (fs : List Frame) (k : ErrorKind) :
    (c.countFrames fs).ofKind k = c.ofKind k := by
  induction fs generalizing c with
  | nil => rfl
  | cons f fs ih => simp [ih]

/-- Encoded frames one behind the other are all accepted, in order (R170). -/
theorem settle_frames {now : Time} {fs : List Frame} {e : Engine} (hfs : ∀ f ∈ fs, f.payload.length < 2 ^ 32)
    (hbuf : e.buf = fs.flatMap Frame.wire) (hpending : e.pendingSince = none) :
    settle now e = ⟨{ e with buf := [], pendingSince := none, counters := e.counters.countFrames fs },
      fs.map .frame⟩ := by
  induction fs generalizing e with
  | nil =>
    have hidle : e.Idle := ⟨hbuf, hpending⟩
    rw [settle_nil hbuf, hidle.eq_with_counters]
    rfl
  | cons f fs ih =>
    obtain ⟨hf, hfs⟩ := List.forall_mem_cons.mp hfs
    rw [List.flatMap_cons] at hbuf
    rw [settle_encodeFrame hf hbuf, ih hfs rfl rfl]
    rfl

/-- Settles O53: all the frames are accepted (`settle_frames`), and the laws of `countFrames` say what each counter
rises by. -/
theorem consecutiveFramesEmittedInOrder : Obligations.ConsecutiveFramesEmittedInOrder := by
  unfold Obligations.ConsecutiveFramesEmittedInOrder
  intro fs now s hfs hidle
  have hkinds := s.engine.counters.countFrames_ofKind fs
  refine ⟨s.engine.counters.countFrames fs, ?feed, ?messages, ?bytes, hkinds .framing, hkinds .crc,
    hkinds .escapeSequence, hkinds .bufferOverflow, hkinds .timeout⟩
  case feed =>
    have hchunk : (s.engine.append (fs.flatMap Frame.wire)).buf = fs.flatMap Frame.wire := by simp [hidle.1]
    have hfeed := exec_feed_live (s := s) (chunk := fs.flatMap Frame.wire) (hidle.live now)
    rw [settle_frames hfs hchunk hidle.2] at hfeed
    rw [← hidle.eq_with_counters]
    exact hfeed
  case messages => rw [Counters.countFrames_messagesReceived, satInc_toNat]
  case bytes => rw [Counters.countFrames_bytesReceived, satInc_toNat]; rfl

end Sys2Proof.Machine

namespace Sys2Proof.Machine

/-! The three resets (O7) -/

theorem exec_reset (s : State) : exec .reset s = .next { s with engine := Engine.reset, response := .none } := rfl

theorem exec_sessionReset (s : State) : exec .sessionReset s =
    .next { s with engine := { s.engine with buf := [], pendingSince := none }, response := .none } := rfl

theorem exec_statReset (s : State) : exec .statReset s =
    .next { s with engine := { s.engine with counters := Counters.zero }, response := .none } := rfl

/-- Settles O7: each number by `decode_encode`, each reset by its meaning. -/
theorem resetsComplete : Obligations.ResetsComplete := by
  unfold Obligations.ResetsComplete
  exact fun s => ⟨decode_encode (i := .reset) rfl, decode_encode (i := .sessionReset) rfl,
    decode_encode (i := .statReset) rfl, exec_reset s, exec_sessionReset s, exec_statReset s⟩

/-! Configuration writes (O8) -/

theorem exec_cfgWrite_of_some {e : Engine} {reg : Nat} {v : U32} {s : State}
    (h : writeRegister s.engine reg v = some e) :
    exec (.cfgWrite reg v) s = .next { s with engine := e, response := .ok } := by
  simp only [exec, execCfgWrite, h, complete_eq]

theorem exec_cfgWrite_of_none {reg : Nat} {v : U32} {s : State} (h : writeRegister s.engine reg v = none) :
    exec (.cfgWrite reg v) s = .next { s with response := .refused } := by
  simp only [exec, execCfgWrite, h, complete_eq]

theorem writeRegister_cfgMaxPayload (e : Engine) {reg : Nat} {v : U32}
    (h : reg = 1 ∧ v.toNat ≤ Config.maxPayloadLimit) :
    writeRegister e reg v = some { e with cfgMaxPayload := v } := if_pos h

theorem writeRegister_cfgTimeout (e : Engine) (v : U32) :
    writeRegister e 2 v = some { e with cfgTimeout := v } := rfl

theorem writeRegister_refused (e : Engine) {reg : Nat} {v : U32}
    (hpayload : ¬(reg = 1 ∧ v.toNat ≤ Config.maxPayloadLimit)) (htimeout : reg ≠ 2) :
    writeRegister e reg v = none := by
  rw [writeRegister, if_neg hpayload, if_neg htimeout]

/-- Settles O8: the three branches of R203 are those of `writeRegister`. -/
theorem cfgWriteCompletes : Obligations.CfgWriteCompletes := by
  unfold Obligations.CfgWriteCompletes
  refine fun reg v s => ⟨decode_encode (i := .cfgWrite reg v) rfl, ?_⟩
  split_ifs with hpayload htimeout
  · exact exec_cfgWrite_of_some (writeRegister_cfgMaxPayload s.engine hpayload)
  · rw [htimeout]
    exact exec_cfgWrite_of_some (writeRegister_cfgTimeout s.engine v)
  · exact exec_cfgWrite_of_none (writeRegister_refused s.engine hpayload htimeout)

/-! Register reads (O9) -/

theorem exec_regRead_of_some {reg : Nat} {r : Register} (h : registerOf reg = some r) (s : State) :
    exec (.regRead reg) s = .next { s with response := .register (readRegister s.engine r) } := by
  simp only [exec, execRegRead, h, complete_eq]

theorem exec_regRead_of_none {reg : Nat} (h : registerOf reg = none) (s : State) :
    exec (.regRead reg) s = .next { s with response := .refused } := by
  simp only [exec, execRegRead, h, complete_eq]

theorem registerOf_unnumbered {reg : Nat} (h : reg = 6 ∨ reg = 7 ∨ 15 ≤ reg) : registerOf reg = none := by
  obtain rfl | rfl | h := h
  · rfl
  · rfl
  · obtain ⟨k, rfl⟩ := Nat.exists_eq_add_of_le' h
    rfl

/-- The STATUS word as a number: its two bits weigh 1 and 2 (R33). -/
theorem Engine.status_eq_ofNat (e : Engine) : e.status =
    BitVec.ofNat 32 ((if e.buf = [] then 0 else 1) + (if e.pendingSince = none then 0 else 2)) := by
  unfold Engine.status Engine.bufNonempty Engine.pending
  cases e.buf <;> cases e.pendingSince <;> simp

/-- `BUF_LEN` is the length itself while it fits the register. -/
theorem readRegister_bufLen_toNat {e : Engine} (h : e.buf.length < 2 ^ 32) :
    (readRegister e .bufLen).toNat = e.buf.length := Nat.mod_eq_of_lt h

theorem readRegister_pendingSince_of_some {e : Engine} {t : Time} (h : e.pendingSince = some t) :
    readRegister e .pendingSince = t := by
  simp only [readRegister, h, Option.getD_some]

theorem readRegister_pendingSince_of_none {e : Engine} (h : e.pendingSince = none) :
    readRegister e .pendingSince = 0 := by
  simp only [readRegister, h, Option.getD_none]

/-- Settles O9: a number that names a register answers `readRegister`, any other is refused; only STATUS, `BUF_LEN` and
`pending_since` are not plain fields, and each has its law. -/
theorem regReadReturnsRegister : Obligations.RegReadReturnsRegister := by
  unfold Obligations.RegReadReturnsRegister
  intro s answers
  have hread {reg : Nat} {r : Register} (h : registerOf reg = some r) : answers reg (readRegister s.engine r) :=
    exec_regRead_of_some h s
  refine ⟨fun reg => decode_encode (i := .regRead reg) rfl, hread (r := .crc) rfl, hread (r := .cfgMaxPayload) rfl,
    hread (r := .cfgTimeout) rfl, ?status, ?bufLen, ?pendingSome, ?pendingNone, hread (r := .messagesReceived) rfl,
    hread (r := .bytesReceived) rfl, hread (r := .framingErrors) rfl, hread (r := .crcErrors) rfl,
    hread (r := .escapeErrors) rfl, hread (r := .overflowErrors) rfl, hread (r := .timeoutErrors) rfl,
    fun reg h => exec_regRead_of_none (registerOf_unnumbered h) s⟩
  case status => exact s.engine.status_eq_ofNat ▸ hread (r := .status) rfl
  case bufLen => exact fun h => ⟨readRegister s.engine .bufLen, readRegister_bufLen_toNat h, hread rfl⟩
  case pendingSome => exact fun t h => readRegister_pendingSince_of_some h ▸ hread rfl
  case pendingNone => exact fun h => readRegister_pendingSince_of_none h ▸ hread rfl

end Sys2Proof.Machine

namespace Sys2Proof.Machine

/-! Every operation completes (O58) -/

theorem exec_cfgWrite_completes (reg : Nat) (v : U32) (s : State) : ∃ t, exec (.cfgWrite reg v) s = .next t := by
  cases h : writeRegister s.engine reg v with
  | some e => exact ⟨_, exec_cfgWrite_of_some h⟩
  | none => exact ⟨_, exec_cfgWrite_of_none h⟩

theorem exec_regRead_completes (reg : Nat) (s : State) : ∃ t, exec (.regRead reg) s = .next t := by
  cases h : registerOf reg with
  | some r => exact ⟨_, exec_regRead_of_some h s⟩
  | none => exact ⟨_, exec_regRead_of_none h s⟩

theorem exec_completes_of_deliveredBy {i : Instr} {chunk : Bytes} {now : Time}
    (h : deliveredBy i = some (chunk, now)) (s : State) : ∃ t, exec i s = .next t :=
  ⟨_, exec_of_deliveredBy h s⟩

/-- Settles O58: a delivery always completes, a register operation answers or is refused as a result, and ENCODE has its
premise; the others write one state. -/
theorem everyOperationCompletes : Obligations.EveryOperationCompletes := by
  unfold Obligations.EveryOperationCompletes
  intro i s hencode
  cases hd : deliveredBy i with
  | some delivery => exact exec_completes_of_deliveredBy hd s
  | none =>
    cases i <;> simp only [deliveredBy, reduceCtorEq] at hd
    case cfgWrite reg v => exact exec_cfgWrite_completes reg v s
    case regRead reg => exact exec_regRead_completes reg s
    case encode t p => exact ⟨_, exec_encode t (hencode t p rfl) s⟩
    all_goals exact ⟨_, rfl⟩

/-! The kinds an operation can report (O49, O57) -/

/-- What the assembler reports for a valid segment is never `EscapeSequenceError` (R223) nor out of scope (R226). -/
theorem Segment.Valid.kind_cases {g : Segment} (h : g.Valid) {k : ErrorKind} (hk : g.event = .error k) :
    k = .framing ∨ k = .crc ∨ k = .bufferOverflow ∨ k = .timeout := by
  cases g with
  | frame b f => cases hk
  | noise b => cases hk; exact .inl rfl
  | resync b kind =>
    cases hk
    obtain ⟨hkind, -⟩ := h
    exact hkind.imp_right .inl
  | overflow b => cases hk; exact .inr (.inr (.inl rfl))
  | timeout b => cases hk; exact .inr (.inr (.inr rfl))

theorem settle_kind_cases {now : Time} {e : Engine} {k : ErrorKind} (hk : .error k ∈ (settle now e).out) :
    k = .framing ∨ k = .crc ∨ k = .bufferOverflow ∨ k = .timeout := by
  obtain ⟨segs, h, hvalid⟩ := settle_accounts now e
  rw [h.events] at hk
  obtain ⟨g, hg, hevent⟩ := List.mem_map.mp hk
  exact (hvalid g hg).kind_cases hevent

theorem assemble_kind_cases {chunk : Bytes} {now : Time} {e : Engine} {k : ErrorKind}
    (hk : .error k ∈ (assemble chunk now e).out) :
    k = .framing ∨ k = .crc ∨ k = .bufferOverflow ∨ k = .timeout := by
  cases hx : expired now e with
  | false => rw [assemble_live hx] at hk; exact settle_kind_cases hk
  | true =>
    rw [assemble_expired hx] at hk
    obtain hk | hk := List.mem_append.mp hk
    · cases List.mem_singleton.mp hk
      exact .inr (.inr (.inr rfl))
    · exact settle_kind_cases hk

/-- Settles O49: the kinds by `assemble_kind_cases`; the counter rises by the number of such events, which is zero. -/
theorem assemblerNeverReportsEscapeError : Obligations.AssemblerNeverReportsEscapeError := by
  unfold Obligations.AssemblerNeverReportsEscapeError
  intro i chunk now s t out hd hexec hout
  rw [exec_of_deliveredBy hd, deliver_eq] at hexec
  cases hexec
  cases hout
  have hnone : .error .escapeSequence ∉ (assemble chunk now s.engine).out :=
    fun h => by simpa using assemble_kind_cases h
  obtain ⟨segs, h, -⟩ := assemble_accounts chunk now s.engine
  have hcount := h.ofKind (k := .escapeSequence) rfl
  rw [errorCount, List.count_eq_zero.mpr hnone, satInc_zero] at hcount
  exact ⟨hnone, hcount⟩

theorem unescapeBytes_kind {d : Bytes} {k : ErrorKind} (h : unescapeBytes d = .err k) : k = .escapeSequence := by
  rw [unescapeBytes_eq] at h
  split at h <;> cases h
  rfl

/-- The kinds of DECODE's steps (R141). -/
theorem decodeFrame_kind_cases {f : Bytes} {k : ErrorKind} (h : decodeFrame f = .err k) :
    k = .framing ∨ k = .escapeSequence ∨ k = .crc := by
  by_cases hshort : f.length < 8
  · rw [decodeFrame_short hshort] at h
    cases h; exact .inl rfl
  have hlen : 8 ≤ f.length := Nat.not_lt.mp hshort
  by_cases hmarkers : byteAt f 0 = Config.startByte ∧ lastByte f = Config.endByte
  · rw [decodeFrame_good_markers hlen hmarkers.1 hmarkers.2] at h
    cases hregion : unescapeBytes (payloadRegion f) with
    | err kind =>
      rw [hregion] at h
      cases h; exact .inr (.inl (unescapeBytes_kind hregion))
    | ok p =>
      rw [hregion] at h
      dsimp only at h
      split_ifs at h
      · cases h; exact .inl rfl
      · cases h; exact .inr (.inr rfl)
  · rw [decodeFrame_bad_markers hlen (not_and_or.mp hmarkers)] at h
    cases h; exact .inl rfl

theorem mem_errorsOf_unescaped {r : Result Bytes} {k : ErrorKind} : k ∈ errorsOf (.unescaped r) ↔ r = .err k := by
  cases r <;> simp [errorsOf, eq_comm]

theorem mem_errorsOf_decoded {r : Result Frame} {k : ErrorKind} : k ∈ errorsOf (.decoded r) ↔ r = .err k := by
  cases r <;> simp [errorsOf, eq_comm]

theorem mem_errorsOf_diag {r : DiagRecord} {k : ErrorKind} : k ∈ errorsOf (.diag r) ↔ r.result = .err k := by
  cases h : r.result <;> simp [errorsOf, h, eq_comm]

theorem mem_errorsOf_assembled {out : List Event} {rest : Bytes} {k : ErrorKind} :
    k ∈ errorsOf (.assembled out rest) ↔ .error k ∈ out := by
  rw [errorsOf, List.mem_filterMap]
  constructor
  · rintro ⟨v, hv, hk⟩
    cases v <;> cases hk
    exact hv
  · exact fun h => ⟨.error k, h, rfl⟩

/-- What an instruction's response can report: nothing, the failure of a codec function, or the events of a delivery. -/
theorem exec_response_cases {i : Instr} {s t : State} (h : exec i s = .next t) :
    errorsOf t.response = [] ∨ (∃ d, t.response = .unescaped (unescapeBytes d)) ∨
      (∃ f, t.response = .decoded (decodeFrame f)) ∨ (∃ f, t.response = .diag (diagFrame f)) ∨
      ∃ chunk now, t.response =
        .assembled (assemble chunk now s.engine).out (assemble chunk now s.engine).engine.buf := by
  cases hd : deliveredBy i with
  | some delivery =>
    rw [exec_of_deliveredBy hd, deliver_eq] at h
    cases h
    exact .inr (.inr (.inr (.inr ⟨_, _, rfl⟩)))
  | none =>
    cases i <;> simp only [deliveredBy, reduceCtorEq] at hd
    case unescape d => cases h; exact .inr (.inl ⟨d, rfl⟩)
    case decode f => cases h; exact .inr (.inr (.inl ⟨f, rfl⟩))
    case diag f => cases h; exact .inr (.inr (.inr (.inl ⟨f, rfl⟩)))
    case cfgWrite reg v =>
      cases hw : writeRegister s.engine reg v with
      | some e => rw [exec_cfgWrite_of_some hw] at h; cases h; exact .inl rfl
      | none => rw [exec_cfgWrite_of_none hw] at h; cases h; exact .inl rfl
    case regRead reg =>
      cases hr : registerOf reg with
      | some r => rw [exec_regRead_of_some hr] at h; cases h; exact .inl rfl
      | none => rw [exec_regRead_of_none hr] at h; cases h; exact .inl rfl
    case encode m p =>
      by_cases hp : p.length < 2 ^ 32
      · rw [exec_encode m hp] at h; cases h; exact .inl rfl
      · rw [exec_encode_of_too_long m (Nat.not_lt.mp hp)] at h; cases h
    all_goals (cases h; exact .inl rfl)

/-- R226: every reported kind is one of the five that the engine raises. -/
theorem exec_reports_raised {i : Instr} {s t : State} (h : exec i s = .next t) {k : ErrorKind}
    (hk : k ∈ errorsOf t.response) : k.raised = true := by
  obtain hr | ⟨d, hr⟩ | ⟨f, hr⟩ | ⟨f, hr⟩ | ⟨chunk, now, hr⟩ := exec_response_cases h <;> rw [hr] at hk
  · cases hk
  · rw [unescapeBytes_kind (mem_errorsOf_unescaped.mp hk)]; rfl
  · obtain rfl | rfl | rfl := decodeFrame_kind_cases (mem_errorsOf_decoded.mp hk) <;> rfl
  · rw [mem_errorsOf_diag, diagFrame_result] at hk
    obtain rfl | rfl | rfl := decodeFrame_kind_cases hk <;> rfl
  · obtain rfl | rfl | rfl | rfl := assemble_kind_cases (mem_errorsOf_assembled.mp hk) <;> rfl

/-- Settles O57: none of the three kinds is one the engine raises (`exec_reports_raised`). -/
theorem outOfScopeErrorsNeverReported : Obligations.OutOfScopeErrorsNeverReported := by
  unfold Obligations.OutOfScopeErrorsNeverReported
  intro i s t h
  have never {k : ErrorKind} (hk : k.raised = false) : k ∉ errorsOf t.response :=
    fun hmem => Bool.false_ne_true (hk.symm.trans (exec_reports_raised h hmem))
  exact ⟨never rfl, never rfl, never rfl⟩

/-! Modular time and true time (O59) -/

theorem elapsed_clockReading_forward {tTrue nowTrue : Nat} (hle : tTrue ≤ nowTrue) (hlt : nowTrue - tTrue < 2 ^ 32) :
    elapsed (clockReading nowTrue) (clockReading tTrue) = nowTrue - tTrue := by
  simp only [elapsed, clockReading, BitVec.toNat_sub, BitVec.toNat_ofNat]
  omega

theorem elapsed_clockReading_backward {tTrue nowTrue : Nat} (hlt : nowTrue < tTrue)
    (hperiod : tTrue - nowTrue < 2 ^ 32) :
    elapsed (clockReading nowTrue) (clockReading tTrue) = 2 ^ 32 - (tTrue - nowTrue) := by
  simp only [elapsed, clockReading, BitVec.toNat_sub, BitVec.toNat_ofNat]
  omega

theorem MonotonicClock.elapsed_eq {t now : Time} {tTrue nowTrue : Nat} (h : MonotonicClock t now tTrue nowTrue) :
    elapsed now t = nowTrue - tTrue := by
  rw [h.reading_t, h.reading_now]
  exact elapsed_clockReading_forward h.monotonic h.withinPeriod

/-- Settles O59: the two directions of the clock. -/
theorem elapsedEqualsTrueTime : Obligations.ElapsedEqualsTrueTime := by
  unfold Obligations.ElapsedEqualsTrueTime
  exact ⟨fun _ _ _ _ h => h.elapsed_eq, fun _ _ => elapsed_clockReading_backward⟩

/-! The timeout in true time (O60) -/

theorem expired_eq_decide {now t : Time} {e : Engine} (h : e.pendingSince = some t) :
    expired now e = decide (e.cfgTimeout.toNat < elapsed now t) := by
  simp only [expired, h, gt_iff_lt]

/-- R161: an expired frame is reported first and once, and counted once; the scan loop behind it reports no timeout. -/
theorem assemble_reports_timeout {now : Time} {e : Engine} (h : expired now e = true) (chunk : Bytes) :
    (assemble chunk now e).out.head? = some (.error .timeout) ∧
      errorCount .timeout (assemble chunk now e).out = 1 ∧
      (assemble chunk now e).engine.counters.timeoutErrors = satInc e.counters.timeoutErrors 1 := by
  rw [assemble_expired h]
  obtain ⟨hnone, hcounter⟩ := settle_no_timeout now (e.timedOut.append chunk)
  refine ⟨rfl, ?once, hcounter⟩
  case once => exact List.count_cons_self.trans (congrArg (· + 1) (List.count_eq_zero.mpr hnone))

theorem assemble_reports_no_timeout {now : Time} {e : Engine} (h : expired now e = false) (chunk : Bytes) :
    .error .timeout ∉ (assemble chunk now e).out ∧
      (assemble chunk now e).engine.counters.timeoutErrors = e.counters.timeoutErrors := by
  rw [assemble_live h]
  exact settle_no_timeout now (e.append chunk)

/-- Settles O60: the report follows the expiry, and the expiry follows the elapsed time, whose true value O59's lemmas
give. -/
theorem timeoutMeasuresTrueTime : Obligations.TimeoutMeasuresTrueTime := by
  unfold Obligations.TimeoutMeasuresTrueTime
  intro i chunk t now tTrue nowTrue s hd hpending
  refine ⟨_, _, (exec_of_deliveredBy hd s).trans (deliver_eq chunk now s), rfl, ?forward, ?backward⟩
  case forward =>
    intro hclock
    have hexpired := expired_eq_decide (now := now) hpending
    rw [hclock.elapsed_eq] at hexpired
    split_ifs with hle
    · exact assemble_reports_no_timeout (hexpired.trans (decide_eq_false (Nat.not_lt.mpr hle))) chunk
    · exact assemble_reports_timeout (hexpired.trans (decide_eq_true (Nat.not_le.mp hle))) chunk
  case backward =>
    rintro rfl rfl hlt hstep
    have hexpired := expired_eq_decide (now := clockReading nowTrue) hpending
    rw [elapsed_clockReading_backward hlt (by omega)] at hexpired
    exact assemble_reports_timeout (hexpired.trans (decide_eq_true (by omega))) chunk

end Sys2Proof.Machine

namespace Sys2Proof.Machine

/-! What DECODE reads besides the message type (O29) -/

theorem byteAt_set_self {f : Bytes} {i : Nat} (hi : i < f.length) (b : Byte) : byteAt (f.set i b) i = b := by
  simp [byteAt, List.getD, hi]

theorem byteAt_set_of_ne (f : Bytes) {i j : Nat} (hij : i ≠ j) (b : Byte) : byteAt (f.set i b) j = byteAt f j := by
  simp [byteAt, List.getD, hij]

/-- R273, R73: the type byte lies in front of the payload region. -/
theorem payloadRegion_set_type (f : Bytes) (b : Byte) : payloadRegion (f.set 7 b) = payloadRegion f := by
  rw [payloadRegion, payloadRegion, List.length_set, List.take_set]
  exact List.drop_set_of_lt (by decide : 7 < Config.headerLen)

/-- R273: no check of DECODE reads the type byte; only the frame it answers does. From 9 bytes on, the type byte is not
also the last one. -/
theorem decodeFrame_set_type {f p : Bytes} {t : Byte} (hlen : 9 ≤ f.length) (h : decodeFrame f = .ok ⟨t, p⟩) (t' : Byte) :
    decodeFrame (f.set 7 t') = .ok ⟨t', p⟩ := by
  obtain ⟨hmin, hstart, hend, hregion, hlength, hcrc, -⟩ := decodeFrame_eq_ok_iff.mp h
  have hkeep {j : Nat} (hj : 7 ≠ j) : byteAt (f.set 7 t') j = byteAt f j := byteAt_set_of_ne f hj t'
  have hlast : lastByte (f.set 7 t') = lastByte f := by
    rw [lastByte, List.length_set]
    exact hkeep (by omega)
  have hlengthField : le32 (f.set 7 t') 1 = le32 f 1 := by simp [le32, hkeep]
  have hcrcField : le16 (f.set 7 t') 5 = le16 f 5 := by simp [le16, hkeep]
  refine decodeFrame_eq_ok_iff.mpr ⟨?minimum, ?start, ?last, ?region, ?length, ?crc, ?type⟩
  case minimum => rwa [List.length_set]
  case start => rwa [hkeep (by decide)]
  case last => rwa [hlast]
  case region => rwa [payloadRegion_set_type]
  case length => rwa [hlengthField]
  case crc => rwa [hcrcField]
  case type => exact byteAt_set_self hmin t'

/-- Settles O29: DECODE's acceptance (`decodeFrame_eq_ok_iff`) is kept by another type byte. -/
theorem typeByteNotCovered : Obligations.TypeByteNotCovered := by
  unfold Obligations.TypeByteNotCovered
  intro f p t t' s hlen h
  exact exec_decode_eq_ok_iff.mpr (decodeFrame_set_type hlen (exec_decode_eq_ok_iff.mp h) t')

end Sys2Proof.Machine
